-- ==== Sys2Proof/Word.lean ====
section
/-! DEFINITION. The widths of the machine's values: bytes, 16-bit words, register numbers, key codes. -/

namespace Sys2Proof

/-- An 8-bit unsigned value: a general register, a timer or a memory byte (00_scope.md R6, R8). -/
abbrev Byte := BitVec 8

/-- A 16-bit unsigned value: an opcode, pc, I or a stack entry (00_scope.md R6, R7). -/
abbrev Word := BitVec 16

/-- A register number: the X or Y field of an opcode, 0x0 to 0xF (00_scope.md R7; 30_encoding.md R72). -/
abbrev Reg := BitVec 4

/-- A key code, 0x0 to 0xF (00_scope.md R6; 60_exceptions.md R223). -/
abbrev Key := BitVec 4

/-- A row count N, 0 to 15 (30_encoding.md R73). -/
abbrev RowCount := BitVec 4

/-- A 12-bit address NNN (30_encoding.md R72). -/
abbrev Addr12 := BitVec 12

/-- The number of the flag register VF = V[0xF] (10_state.md R21). -/
abbrev flagReg : Reg := 0xF#4

end Sys2Proof
end

