-- ==== Sys2Proof/Syntax.lean ====
section
/-! DEFINITION. The 34 instructions, one constructor per row of the opcode table, in the table's order
(30_encoding.md R83). Each operand has exactly its field's width, so every term is an instruction some word encodes. -/

namespace Sys2Proof

/-- An instruction with its decoded operands (30_encoding.md R72, R83). -/
inductive Instr where
  /-- `00E0` CLS. -/
  | cls
  /-- `00EE` RET. -/
  | ret
  /-- `1NNN` JP addr. -/
  | jp (nnn : Addr12)
  /-- `2NNN` CALL addr. -/
  | call (nnn : Addr12)
  /-- `3XNN` SE Vx, byte. -/
  | seImm (x : Reg) (nn : Byte)
  /-- `4XNN` SNE Vx, byte. -/
  | sneImm (x : Reg) (nn : Byte)
  /-- `5XY0` SE Vx, Vy. -/
  | seReg (x y : Reg)
  /-- `6XNN` LD Vx, byte. -/
  | ldImm (x : Reg) (nn : Byte)
  /-- `7XNN` ADD Vx, byte. -/
  | addImm (x : Reg) (nn : Byte)
  /-- `8XY0` LD Vx, Vy. -/
  | ldReg (x y : Reg)
  /-- `8XY1` OR Vx, Vy. -/
  | orReg (x y : Reg)
  /-- `8XY2` AND Vx, Vy. -/
  | andReg (x y : Reg)
  /-- `8XY3` XOR Vx, Vy. -/
  | xorReg (x y : Reg)
  /-- `8XY4` ADD Vx, Vy. -/
  | addReg (x y : Reg)
  /-- `8XY5` SUB Vx, Vy. -/
  | subReg (x y : Reg)
  /-- `8XY6` SHR Vx; Y is encoded and not read. -/
  | shr (x y : Reg)
  /-- `8XY7` SUBN Vx, Vy. -/
  | subnReg (x y : Reg)
  /-- `8XYE` SHL Vx; Y is encoded and not read. -/
  | shl (x y : Reg)
  /-- `9XY0` SNE Vx, Vy. -/
  | sneReg (x y : Reg)
  /-- `ANNN` LD I, addr. -/
  | ldI (nnn : Addr12)
  /-- `BNNN` JP V0, addr. -/
  | jpV0 (nnn : Addr12)
  /-- `CXNN` RND Vx, byte. -/
  | rnd (x : Reg) (nn : Byte)
  /-- `DXYN` DRW Vx, Vy, n. -/
  | drw (x y : Reg) (n : RowCount)
  /-- `EX9E` SKP Vx. -/
  | skp (x : Reg)
  /-- `EXA1` SKNP Vx. -/
  | sknp (x : Reg)
  /-- `FX07` LD Vx, DT. -/
  | ldVxDt (x : Reg)
  /-- `FX0A` LD Vx, K. -/
  | ldKey (x : Reg)
  /-- `FX15` LD DT, Vx. -/
  | ldDt (x : Reg)
  /-- `FX18` LD ST, Vx. -/
  | ldSt (x : Reg)
  /-- `FX1E` ADD I, Vx. -/
  | addI (x : Reg)
  /-- `FX29` LD F, Vx. -/
  | ldFont (x : Reg)
  /-- `FX33` LD B, Vx. -/
  | ldBcd (x : Reg)
  /-- `FX55` LD [I], Vx. -/
  | storeRegs (x : Reg)
  /-- `FX65` LD Vx, [I]. -/
  | loadRegs (x : Reg)
deriving DecidableEq, Repr

end Sys2Proof
end

