-- ==== Sys2Proof/Decode.lean ====
section
/-! DEFINITION. The decoder, total on every word and on every byte string and naming what it rejects
(30_encoding.md R70 to R84), and after it the encoder, written from the formats of R71. -/

namespace Sys2Proof

/-! ### Operand fields (30_encoding.md R72) -/

/-- The family nibble `op[15:12]` (R77). -/
def familyField (op : Word) : BitVec 4 := op.extractLsb' 12 4
/-- `X = op[11:8]`. -/
def xField (op : Word) : Reg := op.extractLsb' 8 4
/-- `Y = op[7:4]`. -/
def yField (op : Word) : Reg := op.extractLsb' 4 4
/-- `N = op[3:0]`. -/
def nField (op : Word) : BitVec 4 := op.extractLsb' 0 4
/-- `NN = op[7:0]`. -/
def nnField (op : Word) : Byte := op.extractLsb' 0 8
/-- `NNN = op[11:0]`. -/
def nnnField (op : Word) : Addr12 := op.extractLsb' 0 12

/-- Why bytes are no instruction: the word is one of the unknown words of a family (30_encoding.md R80), or there are
fewer than two bytes (R70). -/
inductive Reject where
  /-- A word 0x0000–0x0FFF other than 0x00E0 and 0x00EE. -/
  | unknownFamily0
  /-- 5XYN with N ≠ 0. -/
  | unknownFamily5
  /-- 8XYN with N ∈ {8, 9, A, B, C, D, F}. -/
  | unknownFamily8
  /-- 9XYN with N ≠ 0. -/
  | unknownFamily9
  /-- EXKK with KK neither 9E nor A1. -/
  | unknownFamilyE
  /-- FXKK with a low byte that is no sub-opcode. -/
  | unknownFamilyF
  /-- Fewer than two bytes. -/
  | truncated
deriving DecidableEq, Repr

/-- Second level of family 0x0: the whole word selects (R78). -/
def decodeFamily0 (op : Word) : Except Reject Instr :=
  if op = 0x00E0#16 then .ok .cls
  else if op = 0x00EE#16 then .ok .ret
  else .error .unknownFamily0

/-- Family 0x5: the low nibble must be 0 (R79). -/
def decodeFamily5 (op : Word) : Except Reject Instr :=
  if nField op = 0x0#4 then .ok (.seReg (xField op) (yField op)) else .error .unknownFamily5

/-- Second level of family 0x8: the low nibble selects (R78). -/
def decodeFamily8 (op : Word) : Except Reject Instr :=
  match nField op with
  | 0x0#4 => .ok (.ldReg (xField op) (yField op))
  | 0x1#4 => .ok (.orReg (xField op) (yField op))
  | 0x2#4 => .ok (.andReg (xField op) (yField op))
  | 0x3#4 => .ok (.xorReg (xField op) (yField op))
  | 0x4#4 => .ok (.addReg (xField op) (yField op))
  | 0x5#4 => .ok (.subReg (xField op) (yField op))
  | 0x6#4 => .ok (.shr (xField op) (yField op))
  | 0x7#4 => .ok (.subnReg (xField op) (yField op))
  | 0xE#4 => .ok (.shl (xField op) (yField op))
  | _ => .error .unknownFamily8

/-- Family 0x9: the low nibble must be 0 (R79). -/
def decodeFamily9 (op : Word) : Except Reject Instr :=
  if nField op = 0x0#4 then .ok (.sneReg (xField op) (yField op)) else .error .unknownFamily9

/-- Second level of family 0xE: the low byte selects (R78). -/
def decodeFamilyE (op : Word) : Except Reject Instr :=
  match nnField op with
  | 0x9E#8 => .ok (.skp (xField op))
  | 0xA1#8 => .ok (.sknp (xField op))
  | _ => .error .unknownFamilyE

/-- Second level of family 0xF: the low byte selects (R78). -/
def decodeFamilyF (op : Word) : Except Reject Instr :=
  match nnField op with
  | 0x07#8 => .ok (.ldVxDt (xField op))
  | 0x0A#8 => .ok (.ldKey (xField op))
  | 0x15#8 => .ok (.ldDt (xField op))
  | 0x18#8 => .ok (.ldSt (xField op))
  | 0x1E#8 => .ok (.addI (xField op))
  | 0x29#8 => .ok (.ldFont (xField op))
  | 0x33#8 => .ok (.ldBcd (xField op))
  | 0x55#8 => .ok (.storeRegs (xField op))
  | 0x65#8 => .ok (.loadRegs (xField op))
  | _ => .error .unknownFamilyF

/-- Decode a word: the top nibble selects the family (30_encoding.md R77). -/
def decode (op : Word) : Except Reject Instr :=
  match familyField op with
  | 0x0#4 => decodeFamily0 op
  | 0x1#4 => .ok (.jp (nnnField op))
  | 0x2#4 => .ok (.call (nnnField op))
  | 0x3#4 => .ok (.seImm (xField op) (nnField op))
  | 0x4#4 => .ok (.sneImm (xField op) (nnField op))
  | 0x5#4 => decodeFamily5 op
  | 0x6#4 => .ok (.ldImm (xField op) (nnField op))
  | 0x7#4 => .ok (.addImm (xField op) (nnField op))
  | 0x8#4 => decodeFamily8 op
  | 0x9#4 => decodeFamily9 op
  | 0xA#4 => .ok (.ldI (nnnField op))
  | 0xB#4 => .ok (.jpV0 (nnnField op))
  | 0xC#4 => .ok (.rnd (xField op) (nnField op))
  | 0xD#4 => .ok (.drw (xField op) (yField op) (nField op))
  | 0xE#4 => decodeFamilyE op
  | _ => decodeFamilyF op

/-! ### Bytes (20_memory.md R53): big-endian, the first byte is bits 15:8 -/

/-- The word two consecutive bytes make: the byte at the lower address is bits 15:8. -/
def wordOfBytes (hi lo : Byte) : Word := hi ++ lo
/-- The byte of a word that stands at the lower address. -/
def highByte (w : Word) : Byte := w.extractLsb' 8 8
/-- The byte of a word that stands at the higher address. -/
def lowByte (w : Word) : Byte := w.extractLsb' 0 8

/-- Decode the instruction at the front of a byte string, with the bytes left over. -/
def decodeBytes : List Byte → Except Reject (Instr × List Byte)
  | hi :: lo :: rest =>
    match decode (wordOfBytes hi lo) with
    | .ok i => .ok (i, rest)
    | .error r => .error r
  | _ => .error .truncated

/-- The 16-bit word whose bits, numbered as spec/opcode_table.json numbers them, are the low `nbits` bits of `w`. -/
def tableWord (nbits w : Nat) : Word := BitVec.ofNat 16 (w % 2 ^ nbits)

/-- The instruction the decoder reads from a table word's bytes as the hardware stores them. -/
def decodeTableWord (nbits w : Nat) : Option Instr :=
  match decodeBytes [highByte (tableWord nbits w), lowByte (tableWord nbits w)] with
  | .ok (i, _) => some i
  | .error _ => none

/-! ### The encoder, from the formats of 30_encoding.md R71 -/

/-- Format `NNN`: family, 12-bit address. -/
def packNNN (family : BitVec 4) (nnn : Addr12) : Word := family ++ nnn
/-- Formats `XNN` and `X`: family, register, byte (an immediate or a sub-opcode). -/
def packXNN (family : BitVec 4) (x : Reg) (nn : Byte) : Word := (family ++ x) ++ nn
/-- Formats `XY` and `XYN`: family, two registers, nibble (a sub-opcode or a row count). -/
def packXYN (family : BitVec 4) (x y : Reg) (n : BitVec 4) : Word := (family ++ x) ++ (y ++ n)

/-- The word of an instruction. -/
def encode : Instr → Word
  | .cls => 0x00E0#16
  | .ret => 0x00EE#16
  | .jp nnn => packNNN 0x1 nnn
  | .call nnn => packNNN 0x2 nnn
  | .seImm x nn => packXNN 0x3 x nn
  | .sneImm x nn => packXNN 0x4 x nn
  | .seReg x y => packXYN 0x5 x y 0x0
  | .ldImm x nn => packXNN 0x6 x nn
  | .addImm x nn => packXNN 0x7 x nn
  | .ldReg x y => packXYN 0x8 x y 0x0
  | .orReg x y => packXYN 0x8 x y 0x1
  | .andReg x y => packXYN 0x8 x y 0x2
  | .xorReg x y => packXYN 0x8 x y 0x3
  | .addReg x y => packXYN 0x8 x y 0x4
  | .subReg x y => packXYN 0x8 x y 0x5
  | .shr x y => packXYN 0x8 x y 0x6
  | .subnReg x y => packXYN 0x8 x y 0x7
  | .shl x y => packXYN 0x8 x y 0xE
  | .sneReg x y => packXYN 0x9 x y 0x0
  | .ldI nnn => packNNN 0xA nnn
  | .jpV0 nnn => packNNN 0xB nnn
  | .rnd x nn => packXNN 0xC x nn
  | .drw x y n => packXYN 0xD x y n
  | .skp x => packXNN 0xE x 0x9E
  | .sknp x => packXNN 0xE x 0xA1
  | .ldVxDt x => packXNN 0xF x 0x07
  | .ldKey x => packXNN 0xF x 0x0A
  | .ldDt x => packXNN 0xF x 0x15
  | .ldSt x => packXNN 0xF x 0x18
  | .addI x => packXNN 0xF x 0x1E
  | .ldFont x => packXNN 0xF x 0x29
  | .ldBcd x => packXNN 0xF x 0x33
  | .storeRegs x => packXNN 0xF x 0x55
  | .loadRegs x => packXNN 0xF x 0x65

end Sys2Proof
end

