-- ==== Sys2Proof/Config.lean ====
section
/-! DEFINITION. What is fixed for the machine (00_scope.md R6) and the free values: the answers of the random source
and of the input collaborator, which the spec leaves open as draws (92_eei_decisions.md, "Draws"). A free value is an
opaque constant applied to the number of the draw, so nothing can be proved about which value it is. -/

namespace Sys2Proof

/-- `PROG_BASE`, the program load address and reset pc (00_scope.md R6). -/
abbrev Config.progBase : Nat := 0x200

/-- `PROG_MAX`, the largest program image in bytes: 0x1000 − 0x200 (00_scope.md R6). -/
abbrev Config.progMax : Nat := 3584

/-- `TICK_HZ`, the rate at which the driver issues TICK (00_scope.md R6). No rule reads it: a TICK is a request
(60_exceptions.md R216). -/
abbrev Config.tickHz : Nat := 60

/-- `INSTR_RATE`, STEPs a second: OPEN, and read by no rule (70_reset_and_hazards.md R248, D17; log 24). -/
opaque Config.instrRate : Nat

/-- FREE VALUE. The byte `RandByte()` answers to the `n`-th draw: any byte, with no law between draws
(60_exceptions.md R224, D16; log 1). -/
opaque Config.randByte : (n : Nat) → Byte

/-- FREE VALUE. Whether the input collaborator reports key `k` held at the `n`-th draw: any answer, with no law
linking two answers (60_exceptions.md R223, D15; log 2). -/
opaque Config.keyHeld : (n : Nat) → (k : Key) → Bool

/-- FREE VALUE. Which of the held codes FX0A takes at the `n`-th draw, as a place in their list, counted modulo the
list's length (45_keys_timers.md R182, D14; log 3). -/
opaque Config.keyChoice : (n : Nat) → Nat

end Sys2Proof
end

