-- ==== Sys2Proof/Machine/State.lean ====
section
/-! DEFINITION. The machine's state (10_state.md R20 to R37), its value after reset (70_reset_and_hazards.md R241), and
the reasons a request can stop without a next state. -/

namespace Sys2Proof.Machine

/-- STATUS, the run status (10_state.md R33, R34). -/
inductive RunStatus where
  /-- STEP fetches and executes. -/
  | running
  /-- The fetch bounds guard fired; STEP does nothing. -/
  | halted
  /-- A fatal cause fired; STEP does nothing. -/
  | fatal
deriving DecidableEq, Repr

/-- CAUSE, the cause code (10_state.md R33; 60_exceptions.md R201). -/
inductive Cause where
  /-- No error. -/
  | noCause
  /-- Halted by the fetch: pc > 0xFFE. -/
  | fetchRange
  /-- Fatal, raised by 2NNN with SP = 16. -/
  | stackOverflow
  /-- Fatal, raised by 00EE with SP = 0. -/
  | stackUnderflow
  /-- Fatal, raised by DXYN, FX33, FX55 and FX65: an address ≥ 0x1000. -/
  | memRange
  /-- Fatal, raised by EX9E and EXA1: a key code > 0x0F. -/
  | keyRange
deriving DecidableEq, Repr

/-- A stop of the MODEL. The spec's own errors, HALTED and FATAL, are next states and not faults (60_exceptions.md R203,
R204). -/
inductive Fault where
  /-- Raised by 00EE and 2NNN when SP > 16, a value 10_state.md R27 excludes and no request produces. Safe: the spec
  gives a stack access there no effect (log 8). -/
  | stackPointerIllegal
deriving DecidableEq, Repr

/-- A request the model gives no next state. -/
inductive Refusal where
  /-- Raised by `exec` for an instruction without a meaning. Safe. No arm answers it. -/
  | notModelled (mnemonic : String)
  /-- Raised by LOAD for a program image of more than 3584 bytes, which the spec refuses, leaving the state as it was
  (70_reset_and_hazards.md R242). Safe (log 19). -/
  | romTooLong
deriving DecidableEq, Repr

/-- Memory as (address, byte) cells, addresses strictly rising, no cell holding 0x00: an address that is not listed
reads 0x00, its value after LOAD (70_reset_and_hazards.md R241; log 6). -/
abbrev Memory := List Host.Cell

/-- The display surface: `d[x][y]` is the pixel at column x, row y, `true` when lit (10_state.md R31). -/
abbrev Display := Vector (Vector Bool 32) 64

/-- The whole state of the core (10_state.md R37), and the model's own draw counter. -/
structure State where
  /-- V[0x0] to V[0xF]; V[0xF] is the flag register VF (R20, R21). -/
  v : Vector Byte 16
  /-- I, the index register, unmasked (R24). -/
  i : Word
  /-- The program counter (R25). -/
  pc : Word
  /-- SP, the number of occupied stack entries (R27). -/
  sp : Byte
  /-- Stack[0..15], the return addresses (R28). -/
  stack : Vector Word 16
  /-- DT, the delay timer (R29). -/
  dt : Byte
  /-- ST, the sound timer (R30). -/
  st : Byte
  /-- Mem, the 4096 bytes of memory (R32). -/
  mem : Memory
  /-- Disp, the display surface (R31). -/
  disp : Display
  /-- STATUS (R33). -/
  status : RunStatus
  /-- CAUSE (R33). -/
  cause : Cause
  /-- FAULT_PC (R33). -/
  faultPc : Word
  /-- FAULT_OP (R33). -/
  faultOp : Word
  /-- FAULT_INFO (R33). -/
  faultInfo : Word
  /-- THE MODEL'S OWN: how many draws the random source and the input collaborator have answered (log 4). -/
  draws : Nat
deriving DecidableEq, Repr

/-- A display with every pixel unlit. -/
def Display.blank : Display := Vector.replicate 64 (Vector.replicate 32 false)

/-- The state after LOAD of the empty ROM, every field at the value 70_reset_and_hazards.md R241 gives (log 5); the draw
counter, which is not the spec's, starts at 0 (log 4, DESIGN CHOICE). -/
def State.reset : State where
  v := Vector.replicate 16 0
  i := 0
  pc := 0x0200
  sp := 0
  stack := Vector.replicate 16 0
  dt := 0
  st := 0
  mem := []
  disp := Display.blank
  status := .running
  cause := .noCause
  faultPc := 0
  faultOp := 0
  faultInfo := 0
  draws := 0

end Sys2Proof.Machine
end

