-- ==== Sys2Proof/Machine/Ops.lean ====
section
/-! DEFINITION. The named operations over registers, memory and the stack (00_scope.md R9), the fatal entry, which is
this machine's way of taking an exception (60_exceptions.md R204), and the LOAD, the only way out of it (R208). -/

namespace Sys2Proof.Machine

/-- What one instruction or one request answers. -/
abbrev Result := Host.Outcome State Fault Refusal

/-! ### General registers -/

/-- `V[r]` (10_state.md R20). -/
def State.readV (s : State) (r : Reg) : Byte := s.v[r.toNat]'r.isLt

/-- `V[r] <- b`. No register is hardwired (10_state.md R20). -/
def State.writeV (s : State) (r : Reg) (b : Byte) : State := { s with v := s.v.set r.toNat b r.isLt }

/-- Write consecutive registers from number `r` on, one for each byte; numbers above 0xF do not occur. -/
def State.writeVs (s : State) (r : Nat) : List Byte → State
  | [] => s
  | b :: bs => (s.writeV (BitVec.ofNat 4 r) b).writeVs (r + 1) bs

/-- `V[0]` to `V[x]`, inclusive (43_index_memory.md R154). -/
def State.readVs (s : State) (x : Reg) : List Byte :=
  (List.range (x.toNat + 1)).map (fun k => s.readV (BitVec.ofNat 4 k))

/-! ### Memory cells -/

/-- The byte at address `a`: the listed one, or 0x00 (70_reset_and_hazards.md R241). -/
def Memory.read : Memory → Nat → Byte
  | [], _ => 0#8
  | (b, w) :: m, a => if a = b then w else Memory.read m a

/-- Put byte `v` at address `a`, keeping the canonical form: writing 0x00 removes the cell. -/
def Memory.write : Memory → Nat → Byte → Memory
  | [], a, v => if v = 0#8 then [] else [(a, v)]
  | (b, w) :: m, a, v =>
    if a < b then (if v = 0#8 then (b, w) :: m else (a, v) :: (b, w) :: m)
    else if a = b then (if v = 0#8 then m else (a, v) :: m)
    else (b, w) :: Memory.write m a v

/-- The cells stand at strictly rising addresses from `lo` on, all below 0x1000, and none holds 0x00. -/
def Memory.wfFrom (lo : Nat) : Memory → Bool
  | [] => true
  | (a, b) :: m => decide (lo ≤ a) && decide (a < 0x1000) && (b != 0#8) && Memory.wfFrom (a + 1) m

/-- The canonical form of a memory. -/
def Memory.wf (m : Memory) : Bool := Memory.wfFrom 0 m

/-- `Mem[a]`. -/
def State.byte (s : State) (a : Nat) : Byte := Memory.read s.mem a

/-! ### Errors an instruction raises -/

/-- What `raise Fatal(cause, info)` carries (60_exceptions.md R204). -/
structure Raise where
  cause : Cause
  info : Word
deriving DecidableEq, Repr

/-- Fatal entry (60_exceptions.md R204), on the state an instruction rule starts from: pc there is the instruction's
address plus 2, so its own address is `pc - 2` (00_scope.md R11). pc goes back to it, and STATUS, CAUSE and the FAULT
fields are recorded; nothing else changes (R206, D6; log 18). -/
def fatalEntry (op : Word) (e : Raise) (s : State) : State :=
  { s with
    pc := s.pc - 2
    status := .fatal
    cause := e.cause
    faultPc := s.pc - 2
    faultOp := op
    faultInfo := e.info }

/-- End an instruction rule that found the state `s`: with its effect, or with the fatal entry on `s`. -/
def conclude (i : Instr) (s : State) : Except Raise State → Result
  | .ok t => .next t
  | .error e => .next (fatalEntry (encode i) e s)

/-! ### Memory accesses (20_memory.md) -/

/-- `MemRead(a, 1)` of an exact integer address (20_memory.md R55). -/
def memRead (a : Nat) (s : State) : Except Raise Byte :=
  if 0xFFF < a then .error ⟨.memRange, BitVec.ofNat 16 a⟩ else .ok (s.byte a)

/-- `MemWrite(a, 1, b)` at an exact integer address (20_memory.md R56). -/
def memWrite (a : Nat) (b : Byte) (s : State) : Except Raise State :=
  if 0xFFF < a then .error ⟨.memRange, BitVec.ofNat 16 a⟩ else .ok { s with mem := Memory.write s.mem a b }

/-- `CheckRange(lo, count)` (20_memory.md R66): the error names the lowest address out of range. -/
def checkRange (lo : Word) (count : Nat) : Except Raise Unit :=
  if 0 < count ∧ 0xFFF < lo.toNat + count - 1 then .error ⟨.memRange, BitVec.ofNat 16 (max lo.toNat 0x1000)⟩
  else .ok ()

/-- Read `count` bytes one after the other, at `a`, `a + 1`, … -/
def readBytes (a : Nat) : (count : Nat) → State → Except Raise (List Byte)
  | 0, _ => .ok []
  | count + 1, s =>
    match memRead a s with
    | .error e => .error e
    | .ok b =>
      match readBytes (a + 1) count s with
      | .error e => .error e
      | .ok bs => .ok (b :: bs)

/-- Write the bytes one after the other, at `a`, `a + 1`, … -/
def writeBytes (a : Nat) : List Byte → State → Except Raise State
  | [], s => .ok s
  | b :: bs, s =>
    match memWrite a b s with
    | .error e => .error e
    | .ok t => writeBytes (a + 1) bs t

/-- Check the whole range, then read `count` bytes from `lo` on (20_memory.md R55, R57, R66). -/
def loadRange (lo : Word) (count : Nat) (s : State) : Except Raise (List Byte) :=
  match checkRange lo count with
  | .error e => .error e
  | .ok _ => readBytes lo.toNat count s

/-- Check the whole range, then write the bytes from `lo` on (20_memory.md R56, R57, R66). -/
def storeRange (lo : Word) (bytes : List Byte) (s : State) : Except Raise State :=
  match checkRange lo bytes.length with
  | .error e => .error e
  | .ok _ => writeBytes lo.toNat bytes s

/-! ### The stack (10_state.md R27, R28) -/

/-- `Stack[k]`, where there is such an entry. -/
def State.stackEntry (s : State) (k : Byte) : Option Word := s.stack[k.toNat]?

/-- Write `Stack[SP]` and then add 1 to SP; none where SP names no entry. -/
def State.push (s : State) (a : Word) : Option State :=
  if h : s.sp.toNat < 16 then some { s with stack := s.stack.set s.sp.toNat a h, sp := s.sp + 1 } else none

/-- Subtract 1 from SP and then read `Stack[SP]`, which stays as it is (D7); none where SP then names no entry. -/
def State.pop (s : State) : Option (Word × State) :=
  match s.stackEntry (s.sp - 1) with
  | some a => some (a, { s with sp := s.sp - 1 })
  | none => none

/-! ### The program counter -/

/-- `pc <- target`. -/
def State.jump (s : State) (target : Word) : State := { s with pc := target }

/-- `Skip()`: advance pc by 2 extra (41_control_flow.md R108). -/
def State.skip (s : State) : State := { s with pc := s.pc + 2 }

/-- Skip when the condition holds. -/
def State.skipIf (s : State) (c : Bool) : State := if c then s.skip else s

/-- One more draw has been answered (log 4). -/
def State.drawn (s : State) : State := { s with draws := s.draws + 1 }

/-! ### The requests beside STEP (60_exceptions.md R220) -/

/-- A count-down that stops at 0 (60_exceptions.md R215). -/
def countDown (t : Byte) : Byte := if t = 0 then 0 else t - 1

/-- TICK, whatever the status (60_exceptions.md R215, R217). -/
def tick (s : State) : State := { s with dt := countDown s.dt, st := countDown s.st }

/-- Memory with the bytes placed one after the other from address `a` on. -/
def Memory.place (m : Memory) (a : Nat) : List Byte → Memory
  | [] => m
  | b :: bs => Memory.place (Memory.write m a b) (a + 1) bs

/-- LOAD (70_reset_and_hazards.md R240, R242): fresh state with the ROM at 0x200, or a refusal. It keeps the draw counter,
so that no answer of a collaborator is used twice (log 4). -/
def load (rom : List Byte) (s : State) : Result :=
  if Config.progMax < rom.length then .refused .romTooLong
  else .next { State.reset with mem := Memory.place [] Config.progBase rom, draws := s.draws }

end Sys2Proof.Machine
end

