-- ==== Sys2Proof/Machine/Flags.lean ====
section
/-! DEFINITION. The values written to VF as a flag (10_state.md R23), each from the operands before the result is
written. -/

namespace Sys2Proof.Machine

/-- A flag as the byte VF holds: 1 or 0. -/
def flagByte (c : Bool) : Byte := if c then 1 else 0

/-- Carry of 8XY4: the exact sum exceeds 255 (42_register_alu.md R128). -/
def carryOut (a b : Byte) : Bool := decide (255 < a.toNat + b.toNat)

/-- No borrow of 8XY5 and 8XY7: the minuend is at least the subtrahend (42_register_alu.md R129, R131). -/
def noBorrow (minuend subtrahend : Byte) : Bool := decide (subtrahend.toNat ≤ minuend.toNat)

/-- The bit 8XY6 shifts out, bit 0 (42_register_alu.md R130). -/
def lowBit (b : Byte) : Bool := b.getLsbD 0

/-- The bit 8XYE shifts out, bit 7 (42_register_alu.md R132). -/
def highBit (b : Byte) : Bool := b.getLsbD 7

/-- `V[0xF] <- flag`. -/
def State.writeFlag (s : State) (c : Bool) : State := s.writeV flagReg (flagByte c)

end Sys2Proof.Machine
end

