-- ==== Sys2Proof/Machine/Operands.lean ====
section
/-! DEFINITION. Operand values: addresses and bytes widened with zero bits (30_encoding.md R73), the key code in a
register, decimal digits, the glyph address, the held keys. Register operands are `State.readV`, and the one addressing
mode, I + k with no wrap (43_index_memory.md R156), is what `loadRange` and `storeRange` of Ops.lean walk. -/

namespace Sys2Proof.Machine

/-- `zext_16(NNN)` (30_encoding.md R73). -/
def addrOperand (nnn : Addr12) : Word := nnn.setWidth 16

/-- `zext_16` of a register's byte, for the 16-bit sums of BNNN and FX1E (41_control_flow.md R107; 43_index_memory.md R151). -/
def wideOperand (b : Byte) : Word := b.setWidth 16

/-- The key code a register holds, where it is one: 0x0 to 0xF (45_keys_timers.md R180). -/
def keyOperand (b : Byte) : Except Raise Key :=
  if 0xF < b.toNat then .error ⟨.keyRange, wideOperand b⟩ else .ok (b.setWidth 4)

/-- The decimal digits of a byte: hundreds, tens, units (43_index_memory.md R153). -/
def decimalDigits (b : Byte) : List Byte :=
  [BitVec.ofNat 8 (b.toNat / 100), BitVec.ofNat 8 (b.toNat / 10 % 10), BitVec.ofNat 8 (b.toNat % 10)]

/-- `V[X] * 5`, 0 to 1275 (43_index_memory.md R152). -/
def fontAddress (b : Byte) : Word := BitVec.ofNat 16 (b.toNat * 5)

/-- The sixteen key codes, in order (45_keys_timers.md R182). -/
def allKeys : List Key := [0x0, 0x1, 0x2, 0x3, 0x4, 0x5, 0x6, 0x7, 0x8, 0x9, 0xA, 0xB, 0xC, 0xD, 0xE, 0xF]

/-- `{ k in 0x0 .. 0xF | KeyHeld(k) }` for the answers `held` (45_keys_timers.md R182). -/
def heldKeys (held : Key → Bool) : List Key := allKeys.filter held

/-- `choose(held)`: one of the held codes, the one `pick` names counting modulo their number; none when none is held
(45_keys_timers.md R182, D14). -/
def chooseKey (held : List Key) (pick : Nat) : Option Key := held[pick % held.length]?

end Sys2Proof.Machine
end

