-- ==== Sys2Proof/Machine/Alu.lean ====
section
/-! DEFINITION. Register loads and the ALU (42_register_alu.md). Results are modulo 256, which 8-bit arithmetic is.
The order of the two writes is the order of the rule's statements; it decides VF when X = 0xF (D22; log 13). -/

namespace Sys2Proof.Machine

/-- Write the result to `V[x]` and then the flag to VF: the order of 8XY4, 8XY5 and 8XY7. -/
def State.writeResultThenFlag (s : State) (x : Reg) (result : Byte) (flag : Bool) : State :=
  (s.writeV x result).writeFlag flag

/-- 6XNN (42_register_alu.md R122). -/
def execLdImm (x : Reg) (nn : Byte) (s : State) : Result := .next (s.writeV x nn)

/-- 7XNN, which sets no flag (42_register_alu.md R123). -/
def execAddImm (x : Reg) (nn : Byte) (s : State) : Result := .next (s.writeV x (s.readV x + nn))

/-- 8XY0 (42_register_alu.md R124). -/
def execLdReg (x y : Reg) (s : State) : Result := .next (s.writeV x (s.readV y))

/-- 8XY1 (42_register_alu.md R125). -/
def execOrReg (x y : Reg) (s : State) : Result := .next (s.writeV x (s.readV x ||| s.readV y))

/-- 8XY2 (42_register_alu.md R126). -/
def execAndReg (x y : Reg) (s : State) : Result := .next (s.writeV x (s.readV x &&& s.readV y))

/-- 8XY3 (42_register_alu.md R127). -/
def execXorReg (x y : Reg) (s : State) : Result := .next (s.writeV x (s.readV x ^^^ s.readV y))

/-- 8XY4 (42_register_alu.md R128). -/
def execAddReg (x y : Reg) (s : State) : Result :=
  .next (s.writeResultThenFlag x (s.readV x + s.readV y) (carryOut (s.readV x) (s.readV y)))

/-- 8XY5 (42_register_alu.md R129). -/
def execSubReg (x y : Reg) (s : State) : Result :=
  .next (s.writeResultThenFlag x (s.readV x - s.readV y) (noBorrow (s.readV x) (s.readV y)))

/-- 8XY7 (42_register_alu.md R131). -/
def execSubnReg (x y : Reg) (s : State) : Result :=
  .next (s.writeResultThenFlag x (s.readV y - s.readV x) (noBorrow (s.readV y) (s.readV x)))

/-- The effect of 8XY6 on the state: VF first, then the shift of what `V[x]` then holds (42_register_alu.md R130). -/
def State.shiftRight (s : State) (x : Reg) : State :=
  let t := s.writeFlag (lowBit (s.readV x))
  t.writeV x (t.readV x >>> 1)

/-- The effect of 8XYE on the state: VF first, then the shift of what `V[x]` then holds (42_register_alu.md R132). -/
def State.shiftLeft (s : State) (x : Reg) : State :=
  let t := s.writeFlag (highBit (s.readV x))
  t.writeV x (t.readV x <<< 1)

/-- 8XY6; Y is not read (42_register_alu.md R130). -/
def execShr (x _y : Reg) (s : State) : Result := .next (s.shiftRight x)

/-- 8XYE; Y is not read (42_register_alu.md R132). -/
def execShl (x _y : Reg) (s : State) : Result := .next (s.shiftLeft x)

/-- The effect of CXNN when the random source answers `r` (42_register_alu.md R133). -/
def State.maskRandom (s : State) (x : Reg) (nn r : Byte) : State := s.writeV x (r &&& nn)

/-- CXNN: the random byte is a draw (42_register_alu.md R133, D16; log 1). -/
def execRnd (x : Reg) (nn : Byte) (s : State) : Result :=
  .next (s.drawn.maskRandom x nn (Config.randByte s.draws))

end Sys2Proof.Machine
end

