-- ==== Sys2Proof/Machine/ControlFlow.lean ====
section
/-! DEFINITION. Return, jumps, call and skips (41_control_flow.md). When a meaning starts, pc is already the
instruction's address plus 2 (00_scope.md R11). -/

namespace Sys2Proof.Machine

/-- 00EE (41_control_flow.md R100). -/
def execRet (s : State) : Result :=
  if s.sp = 0#8 then conclude .ret s (.error ⟨.stackUnderflow, 0⟩)
  else
    match s.pop with
    | some (a, t) => conclude .ret s (.ok (t.jump a))
    | none => .fault .stackPointerIllegal

/-- 1NNN (41_control_flow.md R101). -/
def execJp (nnn : Addr12) (s : State) : Result := .next (s.jump (addrOperand nnn))

/-- 2NNN (41_control_flow.md R102). -/
def execCall (nnn : Addr12) (s : State) : Result :=
  if s.sp = 16#8 then conclude (.call nnn) s (.error ⟨.stackOverflow, 0⟩)
  else
    match s.push s.pc with
    | some t => conclude (.call nnn) s (.ok (t.jump (addrOperand nnn)))
    | none => .fault .stackPointerIllegal

/-- 3XNN (41_control_flow.md R103). -/
def execSeImm (x : Reg) (nn : Byte) (s : State) : Result := .next (s.skipIf (s.readV x == nn))

/-- 4XNN (41_control_flow.md R104). -/
def execSneImm (x : Reg) (nn : Byte) (s : State) : Result := .next (s.skipIf (s.readV x != nn))

/-- 5XY0 (41_control_flow.md R105). -/
def execSeReg (x y : Reg) (s : State) : Result := .next (s.skipIf (s.readV x == s.readV y))

/-- 9XY0 (41_control_flow.md R106). -/
def execSneReg (x y : Reg) (s : State) : Result := .next (s.skipIf (s.readV x != s.readV y))

/-- BNNN (41_control_flow.md R107): the sum is not masked to 12 bits (D10; log 25). -/
def execJpV0 (nnn : Addr12) (s : State) : Result := .next (s.jump (addrOperand nnn + wideOperand (s.readV 0)))

end Sys2Proof.Machine
end

