-- ==== Sys2Proof/Machine/Display.lean ====
section
/-! DEFINITION. The display surface instructions (44_display.md). -/

namespace Sys2Proof.Machine

/-- `Disp[x mod 64][y mod 32]` (44_display.md R171). -/
def Display.pixel (d : Display) (x y : Nat) : Bool :=
  (d[x % 64]'(Nat.mod_lt x (by decide)))[y % 32]'(Nat.mod_lt y (by decide))

/-- Flip `Disp[x mod 64][y mod 32]`. -/
def Display.flip (d : Display) (x y : Nat) : Display :=
  d.set (x % 64)
    ((d[x % 64]'(Nat.mod_lt x (by decide))).set (y % 32) (!d.pixel x y) (Nat.mod_lt y (by decide)))
    (Nat.mod_lt x (by decide))

/-- A display being drawn on, and whether a lit pixel has become unlit so far (`hit`). -/
structure Canvas where
  disp : Display
  hit : Bool
deriving DecidableEq, Repr

/-- One set sprite bit at a pixel: record a hit where it is lit, and flip it (44_display.md R171). -/
def Canvas.flip (c : Canvas) (x y : Nat) : Canvas := ⟨c.disp.flip x y, c.hit || c.disp.pixel x y⟩

/-- The sprite bit of column `col` in a row byte: bit 7 is column 0, the leftmost (44_display.md R172, D28; log 14). -/
def spriteBit (b : Byte) (col : Nat) : Bool := b.getLsbD (7 - col)

/-- One row of a sprite, its eight columns from `ox` on at row `y`. -/
def Canvas.drawRow (c : Canvas) (ox y : Nat) (b : Byte) : Canvas :=
  (List.range 8).foldl (fun c col => if spriteBit b col then c.flip (ox + col) y else c) c

/-- The rows of a sprite, top row first, from row `y` on. -/
def Canvas.drawRows (c : Canvas) (ox y : Nat) : List Byte → Canvas
  | [] => c
  | b :: bs => (c.drawRow ox y b).drawRows ox (y + 1) bs

/-- Draw the sprite at the origin (`ox`, `oy`), then write VF (44_display.md R171). -/
def State.drawSprite (s : State) (ox oy : Byte) (rows : List Byte) : State :=
  let c := Canvas.drawRows ⟨s.disp, false⟩ ox.toNat oy.toNat rows
  { s with disp := c.disp }.writeFlag c.hit

/-- 00E0 (44_display.md R170). -/
def execCls (s : State) : Result := .next { s with disp := Display.blank }

/-- DXYN (44_display.md R171). -/
def execDrw (x y : Reg) (n : RowCount) (s : State) : Result :=
  conclude (.drw x y n) s ((loadRange s.i n.toNat s).map (s.drawSprite (s.readV x) (s.readV y)))

end Sys2Proof.Machine
end

