-- ==== Sys2Proof/Machine/IndexMemory.lean ====
section
/-! DEFINITION. The index register and memory transfer (43_index_memory.md). No access changes I (R156). -/

namespace Sys2Proof.Machine

/-- ANNN (43_index_memory.md R150). -/
def execLdI (nnn : Addr12) (s : State) : Result := .next { s with i := addrOperand nnn }

/-- FX1E: a 16-bit wrap, no mask to 12 bits and no flag (43_index_memory.md R151, D8; log 12). -/
def execAddI (x : Reg) (s : State) : Result := .next { s with i := s.i + wideOperand (s.readV x) }

/-- FX29 (43_index_memory.md R152). -/
def execLdFont (x : Reg) (s : State) : Result := .next { s with i := fontAddress (s.readV x) }

/-- FX33 (43_index_memory.md R153). -/
def execLdBcd (x : Reg) (s : State) : Result :=
  conclude (.ldBcd x) s (storeRange s.i (decimalDigits (s.readV x)) s)

/-- FX55 (43_index_memory.md R154). -/
def execStoreRegs (x : Reg) (s : State) : Result :=
  conclude (.storeRegs x) s (storeRange s.i (s.readVs x) s)

/-- FX65 (43_index_memory.md R155). -/
def execLoadRegs (x : Reg) (s : State) : Result :=
  conclude (.loadRegs x) s ((loadRange s.i (x.toNat + 1) s).map (s.writeVs 0))

end Sys2Proof.Machine
end

