-- ==== Sys2Proof/Machine/KeysTimers.lean ====
section
/-! DEFINITION. Key tests, the key wait and timer access (45_keys_timers.md). The answers of the input collaborator are
draws (60_exceptions.md R223, D15; log 2). -/

namespace Sys2Proof.Machine

/-- EX9E (45_keys_timers.md R180). -/
def execSkp (x : Reg) (s : State) : Result :=
  conclude (.skp x) s ((keyOperand (s.readV x)).map (fun k => s.drawn.skipIf (Config.keyHeld s.draws k)))

/-- EXA1 (45_keys_timers.md R181). -/
def execSknp (x : Reg) (s : State) : Result :=
  conclude (.sknp x) s ((keyOperand (s.readV x)).map (fun k => s.drawn.skipIf (!Config.keyHeld s.draws k)))

/-- The effect of FX0A when the keys `held` are held and `pick` chooses among them: back to the FX0A word while none is
held, else the code into `V[x]` (45_keys_timers.md R182). -/
def State.keyWait (s : State) (x : Reg) (held : List Key) (pick : Nat) : State :=
  match chooseKey held pick with
  | none => { s with pc := s.pc - 2 }
  | some k => s.writeV x (k.setWidth 8)

/-- FX0A (45_keys_timers.md R182, D14; log 3). -/
def execLdKey (x : Reg) (s : State) : Result :=
  .next (s.drawn.keyWait x (heldKeys (Config.keyHeld s.draws)) (Config.keyChoice s.draws))

/-- FX07 (45_keys_timers.md R183). -/
def execLdVxDt (x : Reg) (s : State) : Result := .next (s.writeV x s.dt)

/-- FX15 (45_keys_timers.md R184). -/
def execLdDt (x : Reg) (s : State) : Result := .next { s with dt := s.readV x }

/-- FX18 (45_keys_timers.md R185). -/
def execLdSt (x : Reg) (s : State) : Result := .next { s with st := s.readV x }

end Sys2Proof.Machine
end

