-- ==== Sys2Proof/Machine/Fetch.lean ====
section
/-! DEFINITION. The parts of the cycle around execution: the bounds guard, the fetch, the advance of pc, the halt entry
(30_encoding.md R74 to R76; 60_exceptions.md R203). -/

namespace Sys2Proof.Machine

/-- The bounds guard: pc + 1 is not an address of memory (30_encoding.md R76, D4; log 10). -/
def guardFires (s : State) : Bool := decide (0xFFE < s.pc.toNat)

/-- The opcode word at pc: the byte at pc is bits 15:8, the byte at pc + 1 is bits 7:0 (30_encoding.md R75). -/
def fetchWord (s : State) : Word := wordOfBytes (s.byte s.pc.toNat) (s.byte (s.pc.toNat + 1))

/-- The fetch's advance of pc, before dispatch (30_encoding.md R75). -/
def advancePc (s : State) : State := { s with pc := s.pc + 2 }

/-- Halt entry (60_exceptions.md R203). -/
def haltEntry (s : State) : State :=
  { s with status := .halted, cause := .fetchRange, faultPc := s.pc, faultOp := 0, faultInfo := 0 }

/-- Store a word where the next fetch reads it. -/
def placeWord (s : State) (w : Word) : State :=
  { s with
    mem := Memory.write (Memory.write s.mem s.pc.toNat (highByte w)) (s.pc.toNat + 1) (lowByte w) }

/-- The state itself where a STEP would fetch from it. Otherwise what a fetch needs: RUNNING with no error recorded, and
pc inside memory, at 0x200 where the guard would fire (log 22). -/
def readyToFetch (s : State) : State :=
  let t : State :=
    if s.status = .running then s
    else { s with status := .running, cause := .noCause, faultPc := 0, faultOp := 0, faultInfo := 0 }
  if guardFires t then { t with pc := 0x0200 } else t

end Sys2Proof.Machine
end

