-- ==== Sys2Proof/Machine/Step.lean ====
section
/-! DEFINITION. The STEP request: one cycle (30_encoding.md R74). -/

namespace Sys2Proof.Machine

/-- One STEP, in the order of 60_exceptions.md R210: the run status, the bounds guard, fetch and decode, execute. An
unknown word only advances pc (30_encoding.md R80; its diagnostic is `diagOf`). -/
def step (s : State) : Host.Outcome State Fault Refusal :=
  match s.status with
  | .halted => .next s
  | .fatal => .next s
  | .running =>
    if guardFires s then .next (haltEntry s)
    else
      match decode (fetchWord s) with
      | .ok i => exec i (advancePc s)
      | .error _ => .next (advancePc s)

/-- The state with the table word `w` of `nbits` bits standing where the very next STEP fetches it (log 5, log 22). -/
def State.withFetchWord (s : State) (nbits w : Nat) : State := placeWord (readyToFetch s) (tableWord nbits w)

end Sys2Proof.Machine
end

