-- ==== Sys2Proof/Machine/Assembly.lean ====
section
/-! DEFINITION. The assembler notation of 30_encoding.md R85, as data: mnemonics with their operands, and the directives
DW and DB. The names are the spec's own choice, from the convention of CHIP-8 assemblers (D27; log 27). -/

namespace Sys2Proof.Machine

/-- The mnemonics of 30_encoding.md R83 column 4. -/
inductive Mnemonic where
  | cls | ret | jp | call | se | sne | ld | add | or | and | xor | sub | shr | subn | shl | rnd | drw | skp | sknp
deriving DecidableEq, Repr

/-- The operand forms of 30_encoding.md R85: `Vx`, `byte`, `addr`, `n`, and the fixed `I`, `DT`, `ST`, `K`, `F`, `B`,
`[I]`. -/
inductive AsmOperand where
  | v (x : Reg)
  | byte (nn : Byte)
  | addr (nnn : Addr12)
  | rows (n : RowCount)
  | i
  | dt
  | st
  | k
  | f
  | b
  | atI
deriving DecidableEq, Repr

/-- A line of assembler: an instruction, or a data word or byte emitted as it is. -/
inductive AsmLine where
  | op (m : Mnemonic) (operands : List AsmOperand)
  | dw (w : Word)
  | db (b : Byte)
deriving DecidableEq, Repr

/-- The instruction a mnemonic with operands names, if any. `SHR Vx` and `SHL Vx` set Y to 0. -/
def assembleInstr : Mnemonic → List AsmOperand → Option Instr
  | .cls, [] => some .cls
  | .ret, [] => some .ret
  | .jp, [.addr a] => some (.jp a)
  | .call, [.addr a] => some (.call a)
  | .se, [.v x, .byte nn] => some (.seImm x nn)
  | .sne, [.v x, .byte nn] => some (.sneImm x nn)
  | .se, [.v x, .v y] => some (.seReg x y)
  | .ld, [.v x, .byte nn] => some (.ldImm x nn)
  | .add, [.v x, .byte nn] => some (.addImm x nn)
  | .ld, [.v x, .v y] => some (.ldReg x y)
  | .or, [.v x, .v y] => some (.orReg x y)
  | .and, [.v x, .v y] => some (.andReg x y)
  | .xor, [.v x, .v y] => some (.xorReg x y)
  | .add, [.v x, .v y] => some (.addReg x y)
  | .sub, [.v x, .v y] => some (.subReg x y)
  | .shr, [.v x] => some (.shr x 0)
  | .subn, [.v x, .v y] => some (.subnReg x y)
  | .shl, [.v x] => some (.shl x 0)
  | .sne, [.v x, .v y] => some (.sneReg x y)
  | .ld, [.i, .addr a] => some (.ldI a)
  | .jp, [.v x, .addr a] => if x = 0 then some (.jpV0 a) else none
  | .rnd, [.v x, .byte nn] => some (.rnd x nn)
  | .drw, [.v x, .v y, .rows n] => some (.drw x y n)
  | .skp, [.v x] => some (.skp x)
  | .sknp, [.v x] => some (.sknp x)
  | .ld, [.v x, .dt] => some (.ldVxDt x)
  | .ld, [.v x, .k] => some (.ldKey x)
  | .ld, [.dt, .v x] => some (.ldDt x)
  | .ld, [.st, .v x] => some (.ldSt x)
  | .add, [.i, .v x] => some (.addI x)
  | .ld, [.f, .v x] => some (.ldFont x)
  | .ld, [.b, .v x] => some (.ldBcd x)
  | .ld, [.atI, .v x] => some (.storeRegs x)
  | .ld, [.v x, .atI] => some (.loadRegs x)
  | _, _ => none

/-- The line an instruction is written as (30_encoding.md R83 column 4). -/
def asmLine : Instr → AsmLine
  | .cls => .op .cls []
  | .ret => .op .ret []
  | .jp a => .op .jp [.addr a]
  | .call a => .op .call [.addr a]
  | .seImm x nn => .op .se [.v x, .byte nn]
  | .sneImm x nn => .op .sne [.v x, .byte nn]
  | .seReg x y => .op .se [.v x, .v y]
  | .ldImm x nn => .op .ld [.v x, .byte nn]
  | .addImm x nn => .op .add [.v x, .byte nn]
  | .ldReg x y => .op .ld [.v x, .v y]
  | .orReg x y => .op .or [.v x, .v y]
  | .andReg x y => .op .and [.v x, .v y]
  | .xorReg x y => .op .xor [.v x, .v y]
  | .addReg x y => .op .add [.v x, .v y]
  | .subReg x y => .op .sub [.v x, .v y]
  | .shr x _ => .op .shr [.v x]
  | .subnReg x y => .op .subn [.v x, .v y]
  | .shl x _ => .op .shl [.v x]
  | .sneReg x y => .op .sne [.v x, .v y]
  | .ldI a => .op .ld [.i, .addr a]
  | .jpV0 a => .op .jp [.v 0, .addr a]
  | .rnd x nn => .op .rnd [.v x, .byte nn]
  | .drw x y n => .op .drw [.v x, .v y, .rows n]
  | .skp x => .op .skp [.v x]
  | .sknp x => .op .sknp [.v x]
  | .ldVxDt x => .op .ld [.v x, .dt]
  | .ldKey x => .op .ld [.v x, .k]
  | .ldDt x => .op .ld [.dt, .v x]
  | .ldSt x => .op .ld [.st, .v x]
  | .addI x => .op .add [.i, .v x]
  | .ldFont x => .op .ld [.f, .v x]
  | .ldBcd x => .op .ld [.b, .v x]
  | .storeRegs x => .op .ld [.atI, .v x]
  | .loadRegs x => .op .ld [.v x, .atI]

/-- The bytes a line emits, a word big-endian (30_encoding.md R85). -/
def assemble : AsmLine → Option (List Byte)
  | .op m operands => (assembleInstr m operands).map (fun i => [highByte (encode i), lowByte (encode i)])
  | .dw w => some [highByte w, lowByte w]
  | .db b => some [b]

/-- The bytes of a program's lines one after the other, or none where a line is no line of the notation. -/
def assembleAll : List AsmLine → Option (List Byte)
  | [] => some []
  | l :: ls =>
    match assemble l, assembleAll ls with
    | some bs, some rest => some (bs ++ rest)
    | _, _ => none

end Sys2Proof.Machine
end

