-- ==== Sys2Proof/Machine/Interface.lean ====
section
/-! DEFINITION. The core's interfaces beside STEP (60_exceptions.md R220 to R226): the driver's requests, the STEP
result with its numeric codes, the diagnostic, the display snapshot and the sound export. The outputs are functions of
the state, since they change nothing and nothing in the core reads them (log 20). -/

namespace Sys2Proof.Machine

/-- The driver's three requests (60_exceptions.md R220). -/
inductive Request where
  | load (rom : List Byte)
  | step
  | tick
deriving DecidableEq, Repr

/-- Serve one request. -/
def serve (r : Request) (s : State) : Result :=
  match r with
  | .load rom => load rom s
  | .step => step s
  | .tick => .next (tick s)

/-- Serve a schedule of requests, in any order the driver issues them (60_exceptions.md R216, D17, D30). A refused LOAD
leaves the state as it was and the driver goes on (70_reset_and_hazards.md R242; log 19). -/
def serveAll : List Request → State → Result
  | [], s => .next s
  | r :: rs, s =>
    match serve r s with
    | .next t => serveAll rs t
    | .fault f => .fault f
    | .refused q => if q = .romTooLong then serveAll rs s else .refused q

/-- The 2-bit code of STATUS (10_state.md R33). -/
def statusCode : RunStatus → BitVec 2
  | .running => 0
  | .halted => 1
  | .fatal => 2

/-- The 3-bit code of CAUSE (60_exceptions.md R201). -/
def causeCode : Cause → BitVec 3
  | .noCause => 0
  | .fetchRange => 1
  | .stackOverflow => 2
  | .stackUnderflow => 3
  | .memRange => 4
  | .keyRange => 5

/-- What a STEP reports to its caller (60_exceptions.md R221). -/
structure StepResult where
  status : RunStatus
  cause : Cause
  faultPc : Word
  faultOp : Word
  faultInfo : Word
deriving DecidableEq, Repr

/-- The result a STEP reports, read off the state it ends in (60_exceptions.md R221). -/
def stepResult (t : State) : StepResult := ⟨t.status, t.cause, t.faultPc, t.faultOp, t.faultInfo⟩

/-- Whether a STEP from this state fetches a word. -/
def fetches (s : State) : Bool := decide (s.status = .running) && !guardFires s

/-- `Diag(op, a)`: the unknown word and its address, where the STEP from this state meets one (60_exceptions.md R226). -/
def diagOf (s : State) : Option (Word × Word) :=
  if fetches s then
    match decode (fetchWord s) with
    | .ok _ => none
    | .error _ => some (fetchWord s, s.pc)
  else none

/-- The instruction the STEP from this state invokes, if it invokes one. -/
def invoked (s : State) : Option Instr :=
  if fetches s then
    match decode (fetchWord s) with
    | .ok i => some i
    | .error _ => none
  else none

/-- The draw and clear opcodes (60_exceptions.md R222). -/
def drawsOrClears : Instr → Bool
  | .cls => true
  | .drw _ _ _ => true
  | _ => false

/-- The display snapshot offered after the STEP from `s` that ended in `t`: Disp at the end of a cycle that invoked a
draw or clear opcode (60_exceptions.md R222). -/
def snapshotOf (s t : State) : Option Display :=
  match invoked s with
  | some i => if drawsOrClears i then some t.disp else none
  | none => none

/-- What the renderer sees between two requests (60_exceptions.md R222, D29). -/
def displayOut (s : State) : Display := s.disp

/-- The value of ST exported to the audio collaborator (60_exceptions.md R225). -/
def soundOut (s : State) : Byte := s.st

end Sys2Proof.Machine
end

