-- ==== Sys2Proof/Safety.lean ====
section
/-! DEFINITION. The terms claims are stated in: the invariant of the machine, the tables of who may write and raise what,
and the pixels a sprite covers. -/

namespace Sys2Proof.Machine

/-- Which instruction may raise which cause (60_exceptions.md R201). -/
def mayRaise : Instr → Cause → Bool
  | .ret, .stackUnderflow => true
  | .call _, .stackOverflow => true
  | .drw _ _ _, .memRange => true
  | .ldBcd _, .memRange => true
  | .storeRegs _, .memRange => true
  | .loadRegs _, .memRange => true
  | .skp _, .keyRange => true
  | .sknp _, .keyRange => true
  | _, _ => false

/-- The values FAULT_INFO takes for a cause (60_exceptions.md R201). -/
def infoFits : Cause → Word → Bool
  | .memRange, info => decide (0x1000 ≤ info.toNat)
  | .keyRange, info => decide (0x10 ≤ info.toNat) && decide (info.toNat ≤ 0xFF)
  | _, info => info == 0

/-- A running core records no error; a halted one stands outside the fetchable addresses with FETCH_RANGE recorded; a
fatal one stands at the word it records, and that word is an instruction that may raise the cause (10_state.md R33;
60_exceptions.md R201, R203, R204). -/
def recordFits (s : State) : Bool :=
  match s.status with
  | .running => s.cause == .noCause && s.faultPc == 0 && s.faultOp == 0 && s.faultInfo == 0
  | .halted =>
    s.cause == .fetchRange && s.faultPc == s.pc && guardFires s && s.faultOp == 0 && s.faultInfo == 0
  | .fatal =>
    s.faultPc == s.pc && !guardFires s && infoFits s.cause s.faultInfo && fetchWord s == s.faultOp &&
      match decode s.faultOp with
      | .ok i => mayRaise i s.cause
      | .error _ => false

/-- What holds of the state between any two requests. -/
structure Inv (s : State) : Prop where
  /-- Memory is in its canonical form: inside 0x000–0xFFF, sorted, no zero cell (20_memory.md R50; log 6). -/
  memCanonical : Memory.wf s.mem = true
  /-- 0 ≤ SP ≤ 16 (10_state.md R27). -/
  spInRange : s.sp.toNat ≤ 16
  /-- A return address is a call's address plus 2, so at most 0x1000 (41_control_flow.md R102). -/
  returnsInRange : ∀ (k : Nat) (h : k < 16), (s.stack[k]'h).toNat ≤ 0x1000
  /-- pc never passes 0x10FE, the largest BNNN target, so it never wraps (10_state.md R26; 41_control_flow.md R107). -/
  pcInRange : s.pc.toNat ≤ 0x10FE
  /-- STATUS and the recorded error agree. -/
  recorded : recordFits s = true

/-- The general registers an instruction may write (10_state.md R22). -/
def writesReg : Instr → Reg → Bool
  | .ldImm x _, r => r == x
  | .addImm x _, r => r == x
  | .ldReg x _, r => r == x
  | .orReg x _, r => r == x
  | .andReg x _, r => r == x
  | .xorReg x _, r => r == x
  | .addReg x _, r => r == x || r == flagReg
  | .subReg x _, r => r == x || r == flagReg
  | .shr x _, r => r == x || r == flagReg
  | .subnReg x _, r => r == x || r == flagReg
  | .shl x _, r => r == x || r == flagReg
  | .rnd x _, r => r == x
  | .drw _ _ _, r => r == flagReg
  | .ldVxDt x, r => r == x
  | .ldKey x, r => r == x
  | .loadRegs x, r => decide (r.toNat ≤ x.toNat)
  | _, _ => false

/-- The instructions that leave pc other than the fetch did (10_state.md R26). -/
def setsPc : Instr → Bool
  | .ret | .jp _ | .call _ | .jpV0 _ => true
  | .seImm _ _ | .sneImm _ _ | .seReg _ _ | .sneReg _ _ | .skp _ | .sknp _ => true
  | .ldKey _ => true
  | _ => false

/-- The instructions that write I (10_state.md R24). -/
def writesIndex : Instr → Bool
  | .ldI _ | .addI _ | .ldFont _ => true
  | _ => false

/-- The instructions that move SP (10_state.md R27). -/
def movesStack : Instr → Bool
  | .ret | .call _ => true
  | _ => false

/-- The instructions that write memory (20_memory.md R51, R57). -/
def writesMemory : Instr → Bool
  | .ldBcd _ | .storeRegs _ => true
  | _ => false

/-- The instructions that take a draw from a collaborator, given the register they name (92_eei_decisions.md, "Draws"). -/
def takesDraw (s : State) : Instr → Bool
  | .rnd _ _ => true
  | .ldKey _ => true
  | .skp x => decide ((s.readV x).toNat ≤ 0xF)
  | .sknp x => decide ((s.readV x).toNat ≤ 0xF)
  | _ => false

/-- Run the execute phases of a list of instructions one after the other. -/
def execAll : List Instr → State → Result
  | [], s => .next s
  | i :: is, s =>
    match exec i s with
    | .next t => execAll is t
    | .fault f => .fault f
    | .refused q => .refused q

/-- From `s` to `t` only the register `x` may have changed. -/
def ChangesOnlyReg (s t : State) (x : Reg) : Prop :=
  (∀ r, r ≠ x → t.readV r = s.readV r) ∧ { t with v := s.v } = s

/-- `t` is `s` after a fatal entry (60_exceptions.md R204): pc is back at the instruction's address, STATUS, CAUSE and
the FAULT fields are recorded, and everything else is as `s` has it. In `s` pc is the instruction's address plus 2. -/
structure EndsFatal (s t : State) (op : Word) (c : Cause) (info : Nat) : Prop where
  pc : t.pc = s.pc - 2
  status : t.status = .fatal
  cause : t.cause = c
  faultPc : t.faultPc = s.pc - 2
  faultOp : t.faultOp = op
  faultInfo : t.faultInfo.toNat = info
  frame : { t with pc := s.pc, status := s.status, cause := s.cause, faultPc := s.faultPc, faultOp := s.faultOp,
                   faultInfo := s.faultInfo } = s

/-- Some set bit of the `n`-row sprite at I, drawn at the origin (`ox`, `oy`), falls on the pixel (44_display.md R171):
bit 7 of a row byte is column 0 (R172). -/
def SpriteCovers (s : State) (ox oy : Byte) (n px py : Nat) : Prop :=
  ∃ row col : Nat, row < n ∧ col < 8 ∧ (ox.toNat + col) % 64 = px ∧ (oy.toNat + row) % 32 = py ∧
    (s.byte (s.i.toNat + row)).getLsbD (7 - col) = true

end Sys2Proof.Machine
end

