-- ==== Sys2Proof/Certificates/Slice0/Obligations.lean ====
section
/-! DEFINITION. The statements for the provers. In every statement about `exec` the state `s` is the one the execute
phase starts from: pc there is the instruction's address plus 2 (00_scope.md R11). `{ t with v := s.v } = s` says that
everything but V is unchanged from `s` to `t`. A clause that rests on a decision D<n> of spec/92_eei_decisions.md rests
on the spec's own choice; the docstring names it. -/

open Sys2Proof Sys2Proof.Machine

/-! ### Encoding -/

/-- Decode and encode agree, for every instruction and every operand: on the word, on the bytes as the hardware stores
them, and on the opcode table's numbering. -/
def Obligations.EncodedInstructionDecodesBack : Prop :=
  ∀ i : Instr, decode (encode i) = .ok i ∧
    (∀ rest : List Byte, decodeBytes (highByte (encode i) :: lowByte (encode i) :: rest) = .ok (i, rest)) ∧
    decodeTableWord 16 (encode i).toNat = some i

/-- Every word the decoder reads is the encoder's word of that instruction: no bit of a word is ignored (exact
matching: D11, log 15). -/
def Obligations.DecodedWordEncodesBack : Prop :=
  ∀ (w : Word) (i : Instr), decode w = .ok i → encode i = w

/-- The two-level decoder agrees with the opcode table: a word decodes to an instruction of the one row that covers it,
and is rejected exactly where no row covers it (exact matching: D11). -/
def Obligations.DecoderFollowsOpcodeTable : Prop :=
  ∀ w : Word,
    (∀ i, decode w = .ok i → i.row.covers w = true ∧ ∀ r ∈ opcodeTable, r.covers w = true → r = i.row) ∧
    (∀ e, decode w = .error e → wellFormedWord w = false)

/-- The unknown words are exactly the six families of words of the table in 30_encoding.md R80 (exact matching: D11). -/
def Obligations.UnknownWordsExactly : Prop :=
  ∀ w : Word, (∃ e, decode w = .error e) ↔
    (w.toNat < 0x1000 ∧ w.toNat ≠ 0x00E0 ∧ w.toNat ≠ 0x00EE) ∨
    (w.toNat / 0x1000 = 0x5 ∧ w.toNat % 16 ≠ 0) ∨
    (w.toNat / 0x1000 = 0x8 ∧ w.toNat % 16 ∈ [0x8, 0x9, 0xA, 0xB, 0xC, 0xD, 0xF]) ∨
    (w.toNat / 0x1000 = 0x9 ∧ w.toNat % 16 ≠ 0) ∨
    (w.toNat / 0x1000 = 0xE ∧ w.toNat % 256 ∉ [0x9E, 0xA1]) ∨
    (w.toNat / 0x1000 = 0xF ∧ w.toNat % 256 ∉ [0x07, 0x0A, 0x15, 0x18, 0x1E, 0x29, 0x33, 0x55, 0x65])

/-- Words written out from the opcode map decode to the instructions they stand for, at least one of each of the
sixteen families, and two unknown words are rejected by name (exact matching: D11, log 15). -/
def Obligations.SampleWordsDecode : Prop :=
  decode 0x00E0 = .ok .cls ∧ decode 0x1234 = .ok (.jp 0x234) ∧ decode 0x2345 = .ok (.call 0x345) ∧
  decode 0x332A = .ok (.seImm 3 0x2A) ∧ decode 0x443B = .ok (.sneImm 4 0x3B) ∧ decode 0x5120 = .ok (.seReg 1 2) ∧
  decode 0x6A42 = .ok (.ldImm 0xA 0x42) ∧ decode 0x7102 = .ok (.addImm 1 0x02) ∧ decode 0x8124 = .ok (.addReg 1 2) ∧
  decode 0x812E = .ok (.shl 1 2) ∧ decode 0x9340 = .ok (.sneReg 3 4) ∧ decode 0xA2F0 = .ok (.ldI 0x2F0) ∧
  decode 0xB300 = .ok (.jpV0 0x300) ∧ decode 0xC30F = .ok (.rnd 3 0x0F) ∧ decode 0xD015 = .ok (.drw 0 1 5) ∧
  decode 0xE59E = .ok (.skp 5) ∧ decode 0xF433 = .ok (.ldBcd 4) ∧ decode 0xFF65 = .ok (.loadRegs 0xF) ∧
  decode 0x0123 = .error .unknownFamily0 ∧ decode 0xF175 = .error .unknownFamilyF

/-- Each instruction's line of assembler assembles to its word, big-endian; SHR and SHL, written with one register, to the
word with Y = 0. The notation is the spec's own choice (D27). -/
def Obligations.AssemblyGivesEncodedBytes : Prop :=
  (∀ i : Instr, (∀ x y, i ≠ .shr x y ∧ i ≠ .shl x y) →
    assemble (asmLine i) = some [highByte (encode i), lowByte (encode i)]) ∧
  (∀ x y : Reg, assemble (asmLine (.shr x y)) = some [highByte (encode (.shr x 0)), lowByte (encode (.shr x 0))] ∧
    assemble (asmLine (.shl x y)) = some [highByte (encode (.shl x 0)), lowByte (encode (.shl x 0))])

/-! ### The cycle -/

/-- A STEP of a running core whose pc is inside memory reads the bytes at pc and pc + 1, combines them big-endian into the
opcode, advances pc by 2, and then runs the decoded instruction: the step is that instruction's `exec`. -/
def Obligations.StepFetchesBigEndianAndRuns : Prop :=
  ∀ (s : State) (op : Word) (i : Instr), s.status = .running → s.pc.toNat + 1 ≤ 0xFFF →
    op.toNat = (s.byte s.pc.toNat).toNat * 256 + (s.byte (s.pc.toNat + 1)).toNat → decode op = .ok i →
    step s = exec i { s with pc := s.pc + 2 }

/-- An unknown word writes nothing but the fetch's pc advance, emits its diagnostic, and the core goes on running. -/
def Obligations.UnknownWordOnlyAdvances : Prop :=
  ∀ (s : State) (e : Reject), s.status = .running → s.pc.toNat ≤ 0xFFE → decode (fetchWord s) = .error e →
    ∃ t, step s = .next t ∧ t.pc = s.pc + 2 ∧ { t with pc := s.pc } = s ∧ (stepResult t).status = .running ∧
      diagOf s = some (fetchWord s, s.pc)

/-- No diagnostic is emitted by a STEP that meets an instruction, halts, or finds the core stopped (the threshold 0xFFE
of the halt: D4, log 10; the form of the diagnostic: D12, log 20). -/
def Obligations.DiagnosticOnlyForUnknownWords : Prop :=
  ∀ s : State, diagOf s ≠ none →
    s.status = .running ∧ s.pc.toNat ≤ 0xFFE ∧ wellFormedWord (fetchWord s) = false ∧ step s = .next (advancePc s)

/-- The bounds guard: with pc above 0xFFE a STEP reads nothing and writes only STATUS, CAUSE and the FAULT fields (the
threshold is D4). -/
def Obligations.GuardHaltsOutsideMemory : Prop :=
  ∀ s : State, s.status = .running → 0xFFE < s.pc.toNat →
    ∃ t, step s = .next t ∧ t.status = .halted ∧ t.cause = .fetchRange ∧ t.faultPc = s.pc ∧ t.faultOp = 0 ∧
      t.faultInfo = 0 ∧
      { t with status := s.status, cause := s.cause, faultPc := s.faultPc, faultOp := s.faultOp,
               faultInfo := s.faultInfo } = s

/-- A halted or fatal core ignores STEP, and goes on ignoring it: any number of STEPs changes nothing (D5). -/
def Obligations.StoppedCoreIgnoresSteps : Prop :=
  ∀ (s : State) (n : Nat), s.status ≠ .running → serveAll (List.replicate n .step) s = .next s

/-- A word placed where the next STEP fetches is what that STEP runs; in a core ready to fetch, placing it changes only
the two bytes at pc. Placing is the model's own tool, no request of the machine, and it readies a core that is stopped
or stands past the last word (log 22, DESIGN CHOICE; the canonical memory is log 6; the threshold 0xFFE is D4, log
10). -/
def Obligations.PlacedWordRunsNext : Prop :=
  ∀ (s : State) (i : Instr), Memory.wf s.mem = true →
    step (s.withFetchWord 16 (encode i).toNat) = exec i (advancePc (s.withFetchWord 16 (encode i).toNat)) ∧
    (s.status = .running → s.pc.toNat ≤ 0xFFE →
      (∀ a, a ≠ s.pc.toNat → a ≠ s.pc.toNat + 1 → (s.withFetchWord 16 (encode i).toNat).byte a = s.byte a) ∧
      { s.withFetchWord 16 (encode i).toNat with mem := s.mem } = s)

/-- A store is seen by the very next fetch: after FX55 has written V[0] and V[1] over the two bytes at pc, the next STEP
runs the instruction they make (D24). -/
def Obligations.StoreSeenByNextFetch : Prop :=
  ∀ (s : State) (x : Reg) (op : Word) (i : Instr), Memory.wf s.mem = true → s.status = .running → 1 ≤ x.toNat →
    s.i = s.pc → s.i.toNat + x.toNat ≤ 0xFFF → op.toNat = (s.readV 0).toNat * 256 + (s.readV 1).toNat →
    decode op = .ok i →
    ∃ t, exec (.storeRegs x) s = .next t ∧ step t = exec i (advancePc t)

/-! ### Register loads and the ALU -/

/-- 6XNN. -/
def Obligations.LoadImmediateWritesRegister : Prop :=
  ∀ (x : Reg) (nn : Byte), decode (0x6#4 ++ x ++ nn) = .ok (.ldImm x nn) ∧
    ∀ s : State, ∃ t, exec (.ldImm x nn) s = .next t ∧ t.readV x = nn ∧ ChangesOnlyReg s t x

/-- 7XNN: the sum wraps and no flag is set. -/
def Obligations.AddImmediateWrapsWithoutFlag : Prop :=
  ∀ (x : Reg) (nn : Byte), decode (0x7#4 ++ x ++ nn) = .ok (.addImm x nn) ∧
    ∀ s : State, ∃ t, exec (.addImm x nn) s = .next t ∧
      (t.readV x).toNat = ((s.readV x).toNat + nn.toNat) % 256 ∧ ChangesOnlyReg s t x

/-- 8XY0, 8XY1, 8XY2, 8XY3: copy, OR, AND, XOR, bit by bit; VF changes only as the destination. -/
def Obligations.CopyAndLogicWriteDestinationOnly : Prop :=
  ∀ x y : Reg,
    decode (0x8#4 ++ x ++ y ++ 0x0#4) = .ok (.ldReg x y) ∧ decode (0x8#4 ++ x ++ y ++ 0x1#4) = .ok (.orReg x y) ∧
    decode (0x8#4 ++ x ++ y ++ 0x2#4) = .ok (.andReg x y) ∧ decode (0x8#4 ++ x ++ y ++ 0x3#4) = .ok (.xorReg x y) ∧
    ∀ s : State,
      (∃ t, exec (.ldReg x y) s = .next t ∧ t.readV x = s.readV y ∧ ChangesOnlyReg s t x) ∧
      (∃ t, exec (.orReg x y) s = .next t ∧ ChangesOnlyReg s t x ∧
        ∀ k, (t.readV x).getLsbD k = ((s.readV x).getLsbD k || (s.readV y).getLsbD k)) ∧
      (∃ t, exec (.andReg x y) s = .next t ∧ ChangesOnlyReg s t x ∧
        ∀ k, (t.readV x).getLsbD k = ((s.readV x).getLsbD k && (s.readV y).getLsbD k)) ∧
      (∃ t, exec (.xorReg x y) s = .next t ∧ ChangesOnlyReg s t x ∧
        ∀ k, (t.readV x).getLsbD k = ((s.readV x).getLsbD k ^^ (s.readV y).getLsbD k))

/-- The laws of 8XY4, 8XY5 and 8XY7 for a destination other than VF: results modulo 256, the carry, the no-borrow flags. -/
def Obligations.SumAndDifferenceLaws : Prop :=
  ∀ (x y : Reg) (s : State) (a b : Nat), x ≠ 0xF#4 → a = (s.readV x).toNat → b = (s.readV y).toNat →
    (∃ t, exec (.addReg x y) s = .next t ∧ (t.readV x).toNat = (a + b) % 256 ∧
      t.readV 0xF#4 = (if 255 < a + b then 1 else 0)) ∧
    (∃ t, exec (.subReg x y) s = .next t ∧ ((t.readV x).toNat : Int) = ((a : Int) - b) % 256 ∧
      t.readV 0xF#4 = (if b ≤ a then 1 else 0)) ∧
    (∃ t, exec (.subnReg x y) s = .next t ∧ ((t.readV x).toNat : Int) = ((b : Int) - a) % 256 ∧
      t.readV 0xF#4 = (if a ≤ b then 1 else 0))

/-- 8XY4, 8XY5, 8XY7 for every destination: V[X] is written first and VF last, so with X = 0xF VF ends as the flag (D22);
both are computed from the operands as they were, and nothing else changes. -/
def Obligations.ArithmeticWritesResultThenFlag : Prop :=
  ∀ x y : Reg,
    decode (0x8#4 ++ x ++ y ++ 0x4#4) = .ok (.addReg x y) ∧ decode (0x8#4 ++ x ++ y ++ 0x5#4) = .ok (.subReg x y) ∧
    decode (0x8#4 ++ x ++ y ++ 0x7#4) = .ok (.subnReg x y) ∧
    ∀ s : State,
      (∃ t, exec (.addReg x y) s = .next t ∧ { t with v := s.v } = s ∧
        ∀ r, t.readV r = if r = 0xF#4 then (if 255 < (s.readV x).toNat + (s.readV y).toNat then 1 else 0)
          else if r = x then s.readV x + s.readV y else s.readV r) ∧
      (∃ t, exec (.subReg x y) s = .next t ∧ { t with v := s.v } = s ∧
        ∀ r, t.readV r = if r = 0xF#4 then (if (s.readV y).toNat ≤ (s.readV x).toNat then 1 else 0)
          else if r = x then s.readV x - s.readV y else s.readV r) ∧
      (∃ t, exec (.subnReg x y) s = .next t ∧ { t with v := s.v } = s ∧
        ∀ r, t.readV r = if r = 0xF#4 then (if (s.readV x).toNat ≤ (s.readV y).toNat then 1 else 0)
          else if r = x then s.readV y - s.readV x else s.readV r)

/-- 8XY6 and 8XYE: VF takes the bit shifted out and V[X] the shifted value; with X = 0xF the flag written first is itself
shifted, so VF ends as 0, and as 2 or 0 (D22). Y is not read. -/
def Obligations.ShiftsCaptureBitThenShift : Prop :=
  ∀ x y : Reg,
    decode (0x8#4 ++ x ++ y ++ 0x6#4) = .ok (.shr x y) ∧ decode (0x8#4 ++ x ++ y ++ 0xE#4) = .ok (.shl x y) ∧
    ∀ (s : State) (a : Nat), a = (s.readV x).toNat →
      (∃ t, exec (.shr x y) s = .next t ∧ (∀ z, exec (.shr x z) s = .next t) ∧ { t with v := s.v } = s ∧
        (∀ r, r ≠ x → r ≠ 0xF#4 → t.readV r = s.readV r) ∧
        (if x = 0xF#4 then t.readV 0xF#4 = 0 else (t.readV x).toNat = a / 2 ∧ (t.readV 0xF#4).toNat = a % 2)) ∧
      (∃ t, exec (.shl x y) s = .next t ∧ (∀ z, exec (.shl x z) s = .next t) ∧ { t with v := s.v } = s ∧
        (∀ r, r ≠ x → r ≠ 0xF#4 → t.readV r = s.readV r) ∧
        (if x = 0xF#4 then (t.readV 0xF#4).toNat = a / 128 * 2
          else (t.readV x).toNat = a * 2 % 256 ∧ (t.readV 0xF#4).toNat = a / 128))

/-- CXNN: V[X] takes the drawn byte under the mask, whatever byte the random source answers (D16, log 1), so no bit outside
the mask is set; one draw is counted (the model's own counter, log 4). -/
def Obligations.RandomByteIsMasked : Prop :=
  ∀ (x : Reg) (nn : Byte), decode (0xC#4 ++ x ++ nn) = .ok (.rnd x nn) ∧
    ∀ s : State, ∃ t, exec (.rnd x nn) s = .next t ∧ t.readV x = Config.randByte s.draws &&& nn ∧
      (∀ k, nn.getLsbD k = false → (t.readV x).getLsbD k = false) ∧ (∀ r, r ≠ x → t.readV r = s.readV r) ∧
      t.draws = s.draws + 1 ∧ { t with v := s.v, draws := s.draws } = s

/-! ### Control flow -/

/-- 1NNN: pc takes the zero-extended address; only 0xFFF leaves it where the next fetch halts (the threshold is D4). -/
def Obligations.JumpSetsPc : Prop :=
  ∀ nnn : Addr12, decode (0x1#4 ++ nnn) = .ok (.jp nnn) ∧
    ∀ s : State, ∃ t, exec (.jp nnn) s = .next t ∧ t.pc.toNat = nnn.toNat ∧ { t with pc := s.pc } = s ∧
      (guardFires t = true ↔ nnn = 0xFFF#12)

/-- BNNN: pc takes NNN + V[0], exact and unmasked (D10). -/
def Obligations.JumpWithOffsetAddsV0 : Prop :=
  ∀ nnn : Addr12, decode (0xB#4 ++ nnn) = .ok (.jpV0 nnn) ∧
    ∀ s : State, ∃ t, exec (.jpV0 nnn) s = .next t ∧ t.pc.toNat = nnn.toNat + (s.readV 0).toNat ∧
      { t with pc := s.pc } = s

/-- 3XNN, 4XNN, 5XY0, 9XY0: pc advances by 2 extra exactly where the condition holds; nothing else changes. -/
def Obligations.SkipsAdvancePcByTwoExtra : Prop :=
  ∀ (x y : Reg) (nn : Byte),
    decode (0x3#4 ++ x ++ nn) = .ok (.seImm x nn) ∧ decode (0x4#4 ++ x ++ nn) = .ok (.sneImm x nn) ∧
    decode (0x5#4 ++ x ++ y ++ 0x0#4) = .ok (.seReg x y) ∧ decode (0x9#4 ++ x ++ y ++ 0x0#4) = .ok (.sneReg x y) ∧
    ∀ s : State,
      exec (.seImm x nn) s = .next { s with pc := if s.readV x = nn then s.pc + 2 else s.pc } ∧
      exec (.sneImm x nn) s = .next { s with pc := if s.readV x = nn then s.pc else s.pc + 2 } ∧
      exec (.seReg x y) s = .next { s with pc := if s.readV x = s.readV y then s.pc + 2 else s.pc } ∧
      exec (.sneReg x y) s = .next { s with pc := if s.readV x = s.readV y then s.pc else s.pc + 2 }

/-- 2NNN with room on the stack: the return address goes to Stack[SP], SP counts one more (D7), pc takes the address. -/
def Obligations.CallPushesReturnAddress : Prop :=
  ∀ nnn : Addr12, decode (0x2#4 ++ nnn) = .ok (.call nnn) ∧
    ∀ s : State, s.sp.toNat < 16 → ∃ t, exec (.call nnn) s = .next t ∧ t.pc.toNat = nnn.toNat ∧
      t.sp.toNat = s.sp.toNat + 1 ∧ t.stackEntry s.sp = some s.pc ∧
      (∀ k, k ≠ s.sp → t.stackEntry k = s.stackEntry k) ∧
      { t with pc := s.pc, sp := s.sp, stack := s.stack } = s

/-- 00EE with a call outstanding: SP counts one less, pc takes the entry SP then names, which stays in the stack (D7). -/
def Obligations.ReturnPopsAddress : Prop :=
  decode 0x00EE#16 = .ok .ret ∧
    ∀ s : State, 0 < s.sp.toNat → s.sp.toNat ≤ 16 → ∃ t, exec .ret s = .next t ∧ t.sp.toNat = s.sp.toNat - 1 ∧
      s.stackEntry t.sp = some t.pc ∧ { t with pc := s.pc, sp := s.sp } = s

/-- Sixteen nested calls succeed, a call on a full stack is a fatal overflow, a return on an empty one a fatal underflow,
and neither error moves SP or touches an entry. -/
def Obligations.StackHoldsSixteenCalls : Prop :=
  (∀ (targets : List Addr12) (s : State), s.sp = 0#8 → s.status = .running → targets.length ≤ 16 →
    ∃ t, execAll (targets.map .call) s = .next t ∧ t.sp.toNat = targets.length ∧ t.status = .running) ∧
  (∀ (nnn : Addr12) (s : State), s.sp = 16#8 → ∃ t, exec (.call nnn) s = .next t ∧ t.status = .fatal ∧
    t.cause = .stackOverflow ∧ t.sp = s.sp ∧ t.stack = s.stack) ∧
  (∀ s : State, s.sp = 0#8 → ∃ t, exec .ret s = .next t ∧ t.status = .fatal ∧ t.cause = .stackUnderflow ∧
    t.sp = s.sp ∧ t.stack = s.stack)

/-- The stack errors take the fatal entry with FAULT_INFO 0 (what it records: D6). SP above 16 is a state no rule gives a
meaning; there the model stops by name (log 8, the model's own). -/
def Obligations.StackErrorsEndFatal : Prop :=
  (∀ (nnn : Addr12) (s : State), s.sp = 16#8 →
    ∃ t, exec (.call nnn) s = .next t ∧ EndsFatal s t (0x2#4 ++ nnn) .stackOverflow 0) ∧
  (∀ s : State, s.sp = 0#8 → ∃ t, exec .ret s = .next t ∧ EndsFatal s t 0x00EE#16 .stackUnderflow 0) ∧
  (∀ (nnn : Addr12) (s : State), 16 < s.sp.toNat →
    exec (.call nnn) s = .fault .stackPointerIllegal ∧ exec .ret s = .fault .stackPointerIllegal)

/-- A return undoes a call, whatever the called code did that left SP and the stack as the call left them: pc is back
at the instruction after the call, SP at its value before it, and no stack entry differs but the one the call wrote,
Stack[SP] (D7, log 29). -/
def Obligations.ReturnUndoesCall : Prop :=
  ∀ (nnn : Addr12) (s t u : State), s.sp.toNat < 16 → exec (.call nnn) s = .next t → u.sp = t.sp → u.stack = t.stack →
    ∃ w, exec .ret u = .next w ∧ w.pc = s.pc ∧ w.sp = s.sp ∧
      (∀ k : Byte, k ≠ s.sp → w.stackEntry k = s.stackEntry k) ∧ { w with pc := u.pc, sp := u.sp } = u

/-! ### Index register and memory -/

/-- ANNN and FX29: I takes the address, or five times V[X], all eight bits of it. -/
def Obligations.IndexLoads : Prop :=
  (∀ nnn : Addr12, decode (0xA#4 ++ nnn) = .ok (.ldI nnn) ∧
    ∀ s : State, ∃ t, exec (.ldI nnn) s = .next t ∧ t.i.toNat = nnn.toNat ∧ { t with i := s.i } = s) ∧
  (∀ x : Reg, decode (0xF#4 ++ x ++ 0x29#8) = .ok (.ldFont x) ∧
    ∀ s : State, ∃ t, exec (.ldFont x) s = .next t ∧ t.i.toNat = (s.readV x).toNat * 5 ∧ { t with i := s.i } = s)

/-- FX1E: a 16-bit wrap, no mask to 12 bits, no flag (D8). -/
def Obligations.IndexAddWrapsAt16Bits : Prop :=
  ∀ x : Reg, decode (0xF#4 ++ x ++ 0x1E#8) = .ok (.addI x) ∧
    ∀ s : State, ∃ t, exec (.addI x) s = .next t ∧ t.i.toNat = (s.i.toNat + (s.readV x).toNat) % 65536 ∧
      { t with i := s.i } = s

/-- FX33 inside memory: hundreds, tens and units at I, I + 1, I + 2; no other byte, and I, unchanged (range: D9). -/
def Obligations.BcdStoresThreeDigits : Prop :=
  ∀ x : Reg, decode (0xF#4 ++ x ++ 0x33#8) = .ok (.ldBcd x) ∧
    ∀ s : State, Memory.wf s.mem = true → s.i.toNat + 2 ≤ 0xFFF → ∃ t, exec (.ldBcd x) s = .next t ∧
      (t.byte s.i.toNat).toNat = (s.readV x).toNat / 100 ∧
      (t.byte (s.i.toNat + 1)).toNat = (s.readV x).toNat / 10 % 10 ∧
      (t.byte (s.i.toNat + 2)).toNat = (s.readV x).toNat % 10 ∧
      (∀ a, a < s.i.toNat ∨ s.i.toNat + 2 < a → t.byte a = s.byte a) ∧ { t with mem := s.mem } = s

/-- FX55 inside memory: V[0] to V[X], inclusive, at I to I + X; no other byte, and I, unchanged (range: D9). -/
def Obligations.StoreRegistersWritesRange : Prop :=
  ∀ x : Reg, decode (0xF#4 ++ x ++ 0x55#8) = .ok (.storeRegs x) ∧
    ∀ s : State, Memory.wf s.mem = true → s.i.toNat + x.toNat ≤ 0xFFF → ∃ t, exec (.storeRegs x) s = .next t ∧
      (∀ r : Reg, r.toNat ≤ x.toNat → t.byte (s.i.toNat + r.toNat) = s.readV r) ∧
      (∀ a, a < s.i.toNat ∨ s.i.toNat + x.toNat < a → t.byte a = s.byte a) ∧ { t with mem := s.mem } = s

/-- FX65 inside memory: V[0] to V[X], inclusive, from I to I + X; no other register, and I and memory, unchanged (range:
D9). -/
def Obligations.LoadRegistersReadsRange : Prop :=
  ∀ x : Reg, decode (0xF#4 ++ x ++ 0x65#8) = .ok (.loadRegs x) ∧
    ∀ s : State, s.i.toNat + x.toNat ≤ 0xFFF → ∃ t, exec (.loadRegs x) s = .next t ∧
      (∀ r : Reg, t.readV r = if r.toNat ≤ x.toNat then s.byte (s.i.toNat + r.toNat) else s.readV r) ∧
      { t with v := s.v } = s

/-- The FX55/FX65 round trip: storing V[0] to V[X], overwriting registers at will, and loading back with I unchanged
restores exactly V[0] to V[X] (range: D9). -/
def Obligations.StoreLoadRoundTrip : Prop :=
  ∀ (x : Reg) (s t u : State), Memory.wf s.mem = true → s.i.toNat + x.toNat ≤ 0xFFF →
    exec (.storeRegs x) s = .next t → u.mem = t.mem → u.i = t.i →
    ∃ w, exec (.loadRegs x) u = .next w ∧ (∀ r : Reg, r.toNat ≤ x.toNat → w.readV r = s.readV r) ∧
      (∀ r : Reg, x.toNat < r.toNat → w.readV r = u.readV r) ∧ { w with v := u.v } = u

/-- FX33, FX55, FX65 and DXYN with a byte of their range at 0x1000 or above take the fatal entry with MEM_RANGE and the
lowest such address, and write no byte, register or pixel (D9; what is recorded: D6). -/
def Obligations.OutOfRangeAccessEndsFatal : Prop :=
  ∀ (x y : Reg) (n : RowCount) (s : State),
    (0xFFF < s.i.toNat + 2 → ∃ t, exec (.ldBcd x) s = .next t ∧
      EndsFatal s t (0xF#4 ++ x ++ 0x33#8) .memRange (max s.i.toNat 0x1000)) ∧
    (0xFFF < s.i.toNat + x.toNat → ∃ t, exec (.storeRegs x) s = .next t ∧
      EndsFatal s t (0xF#4 ++ x ++ 0x55#8) .memRange (max s.i.toNat 0x1000)) ∧
    (0xFFF < s.i.toNat + x.toNat → ∃ t, exec (.loadRegs x) s = .next t ∧
      EndsFatal s t (0xF#4 ++ x ++ 0x65#8) .memRange (max s.i.toNat 0x1000)) ∧
    (0 < n.toNat → 0xFFF < s.i.toNat + n.toNat - 1 → ∃ t, exec (.drw x y n) s = .next t ∧
      EndsFatal s t (0xD#4 ++ x ++ y ++ n) .memRange (max s.i.toNat 0x1000))

/-! ### Display -/

/-- 00E0: every pixel unlit, nothing else changed, and the snapshot after the cycle is the cleared display. -/
def Obligations.ClearUnlightsEveryPixel : Prop :=
  decode 0x00E0#16 = .ok .cls ∧
    ∀ s : State, ∃ t, exec .cls s = .next t ∧ (∀ x y, t.disp.pixel x y = false) ∧ { t with disp := s.disp } = s ∧
      ∀ s₀, invoked s₀ = some .cls → snapshotOf s₀ t = some t.disp

/-- DXYN inside memory, N = 0 included: a pixel flips exactly where a set sprite bit falls on it, wrapping modulo 64 and
32, VF reports whether a flipped pixel was lit, and nothing else changes. The origin is V[X], V[Y] before VF is written
(D22); bit 7 is the leftmost column (D28); range: D9. -/
def Obligations.DrawXorsSpriteAndReportsCollision : Prop :=
  ∀ (x y : Reg) (n : RowCount), decode (0xD#4 ++ x ++ y ++ n) = .ok (.drw x y n) ∧
    ∀ s : State, n = 0 ∨ s.i.toNat + n.toNat - 1 ≤ 0xFFF → ∃ t, exec (.drw x y n) s = .next t ∧
      (∀ px py, px < 64 → py < 32 → (t.disp.pixel px py ≠ s.disp.pixel px py ↔
        SpriteCovers s (s.readV x) (s.readV y) n.toNat px py)) ∧
      (t.readV 0xF#4 = 0 ∨ t.readV 0xF#4 = 1) ∧
      (t.readV 0xF#4 = 1 ↔ ∃ px py, px < 64 ∧ py < 32 ∧ SpriteCovers s (s.readV x) (s.readV y) n.toNat px py ∧
        s.disp.pixel px py = true) ∧
      (∀ r, r ≠ 0xF#4 → t.readV r = s.readV r) ∧ { t with v := s.v, disp := s.disp } = s

/-- Drawing the same sprite twice at the same place restores the display; the second draw reports a collision exactly where
the first lit a pixel. X and Y are not 0xF here, since the first draw writes VF (D22; range: D9). -/
def Obligations.DrawTwiceRestoresDisplay : Prop :=
  ∀ (x y : Reg) (n : RowCount) (s : State), x ≠ 0xF#4 → y ≠ 0xF#4 → n = 0 ∨ s.i.toNat + n.toNat - 1 ≤ 0xFFF →
    ∃ t u, exec (.drw x y n) s = .next t ∧ exec (.drw x y n) t = .next u ∧ u.disp = s.disp ∧
      (u.readV 0xF#4 = 1 ↔ ∃ px py, px < 64 ∧ py < 32 ∧ s.disp.pixel px py = false ∧ t.disp.pixel px py = true)

/-! ### Keys and timers -/

/-- EX9E and EXA1 with a key code 0x0 to 0xF: the skip is taken exactly as the input collaborator answers, whatever it
answers (D15, log 2); one draw is counted (the model's own counter, log 4). -/
def Obligations.KeySkipsFollowAnswer : Prop :=
  ∀ x : Reg, decode (0xE#4 ++ x ++ 0x9E#8) = .ok (.skp x) ∧ decode (0xE#4 ++ x ++ 0xA1#8) = .ok (.sknp x) ∧
    ∀ (s : State) (k : Key), (s.readV x).toNat = k.toNat →
      exec (.skp x) s = .next { s with pc := if Config.keyHeld s.draws k = true then s.pc + 2 else s.pc,
                                       draws := s.draws + 1 } ∧
      exec (.sknp x) s = .next { s with pc := if Config.keyHeld s.draws k = true then s.pc else s.pc + 2,
                                        draws := s.draws + 1 }

/-- EX9E and EXA1 with a key code above 0xF take the fatal entry with KEY_RANGE and the code (D13; what is recorded: D6). -/
def Obligations.KeyCodeOutOfRangeEndsFatal : Prop :=
  ∀ (x : Reg) (s : State), 0xF < (s.readV x).toNat →
    (∃ t, exec (.skp x) s = .next t ∧ EndsFatal s t (0xE#4 ++ x ++ 0x9E#8) .keyRange (s.readV x).toNat) ∧
    (∃ t, exec (.sknp x) s = .next t ∧ EndsFatal s t (0xE#4 ++ x ++ 0xA1#8) .keyRange (s.readV x).toNat)

/-- FX0A: it counts one draw (the model's own counter, log 4, DESIGN CHOICE) and then acts on the collaborator's
answers `held` and a choice `pick`. With no key held pc goes back to the FX0A word and nothing else changes; with a key
held V[X] takes the code of a held key, any of which some choice takes (D14, log 3; D15, log 2). -/
def Obligations.KeyWaitPollsOrLoadsHeldKey : Prop :=
  ∀ x : Reg, decode (0xF#4 ++ x ++ 0x0A#8) = .ok (.ldKey x) ∧
    (∀ s : State, ∃ t, exec (.ldKey x) s = .next t ∧
      t = ({ s with draws := s.draws + 1 } : State).keyWait x (heldKeys (Config.keyHeld s.draws))
        (Config.keyChoice s.draws)) ∧
    (∀ (s : State) (held : Key → Bool) (pick : Nat), (∀ k, held k = false) →
      s.keyWait x (heldKeys held) pick = { s with pc := s.pc - 2 }) ∧
    (∀ (s : State) (held : Key → Bool) (pick : Nat), (∃ k, held k = true) →
      ∃ k, held k = true ∧ ((s.keyWait x (heldKeys held) pick).readV x).toNat = k.toNat ∧
        ChangesOnlyReg s (s.keyWait x (heldKeys held) pick) x) ∧
    (∀ (s : State) (held : Key → Bool) (k : Key), held k = true →
      ∃ pick, ((s.keyWait x (heldKeys held) pick).readV x).toNat = k.toNat)

/-- FX07, FX15 and FX18. -/
def Obligations.TimerInstructionsMoveOneByte : Prop :=
  ∀ x : Reg, decode (0xF#4 ++ x ++ 0x07#8) = .ok (.ldVxDt x) ∧ decode (0xF#4 ++ x ++ 0x15#8) = .ok (.ldDt x) ∧
    decode (0xF#4 ++ x ++ 0x18#8) = .ok (.ldSt x) ∧
    ∀ s : State,
      (∃ t, exec (.ldVxDt x) s = .next t ∧ t.readV x = s.dt ∧ ChangesOnlyReg s t x) ∧
      exec (.ldDt x) s = .next { s with dt := s.readV x } ∧ exec (.ldSt x) s = .next { s with st := s.readV x }

/-- TICK: each timer decrements by 1 if nonzero; nothing else changes. -/
def Obligations.TickDecrementsNonzeroTimers : Prop :=
  ∀ s : State, ∃ t, serve .tick s = .next t ∧
    t.dt = (if 0 < s.dt.toNat then s.dt - 1 else s.dt) ∧ t.st = (if 0 < s.st.toNat then s.st - 1 else s.st) ∧
    { t with dt := s.dt, st := s.st } = s

/-- Any number of ticks, in any status: each timer counts down to zero and stays there, and nothing else changes (ticks in
HALTED and FATAL: D18). -/
def Obligations.ManyTicksCountDownToZero : Prop :=
  ∀ (n : Nat) (s : State), ∃ t, serveAll (List.replicate n .tick) s = .next t ∧ t.dt.toNat = s.dt.toNat - n ∧
    t.st.toNat = s.st.toNat - n ∧ { t with dt := s.dt, st := s.st } = s

/-! ### Reset, LOAD and the interfaces -/

/-- Every field of the reset state has the value the spec gives after LOAD (D3, D19; the draw counter is not mentioned). -/
def Obligations.ResetStateValues : Prop :=
  (∀ r, State.reset.readV r = 0) ∧ State.reset.i = 0 ∧ State.reset.pc = 0x200 ∧ State.reset.sp = 0 ∧
  (∀ k : Byte, k.toNat < 16 → State.reset.stackEntry k = some 0) ∧ State.reset.dt = 0 ∧ State.reset.st = 0 ∧
  (∀ a, State.reset.byte a = 0) ∧ (∀ x y, State.reset.disp.pixel x y = false) ∧ State.reset.status = .running ∧
  State.reset.cause = .noCause ∧ State.reset.faultPc = 0 ∧ State.reset.faultOp = 0 ∧ State.reset.faultInfo = 0

/-- LOAD of a program image that fits: the bytes stand from 0x200 on, every other byte is zero and every other field is
as after reset, with no residue of the state before (memory outside the image: D19, log 16; STATUS, CAUSE and the FAULT
fields: D3, log 30). The memory is in the model's canonical form (log 6, DESIGN CHOICE), and the model's own draw
counter goes on (log 4, DESIGN CHOICE). -/
def Obligations.LoadGivesFreshState : Prop :=
  ∀ (rom : List Byte) (s : State), rom.length ≤ 3584 → ∃ t, load rom s = .next t ∧ Memory.wf t.mem = true ∧
    (∀ a, t.byte a = if 0x200 ≤ a ∧ a < 0x200 + rom.length then rom.getD (a - 0x200) 0 else 0) ∧
    { t with mem := State.reset.mem, draws := State.reset.draws } = State.reset ∧ t.draws = s.draws

/-- LOAD of a longer image is refused, and a schedule goes on from the state as it was (D20). -/
def Obligations.OversizedRomIsRefused : Prop :=
  ∀ (rom : List Byte) (s : State) (rest : List Request), 3584 < rom.length →
    load rom s = .refused .romTooLong ∧ serveAll (.load rom :: rest) s = serveAll rest s

/-- The numeric codes a driver sees in the STEP result (D3). -/
def Obligations.ResultCodes : Prop :=
  statusCode .running = 0 ∧ statusCode .halted = 1 ∧ statusCode .fatal = 2 ∧ causeCode .noCause = 0 ∧
  causeCode .fetchRange = 1 ∧ causeCode .stackOverflow = 2 ∧ causeCode .stackUnderflow = 3 ∧ causeCode .memRange = 4 ∧
  causeCode .keyRange = 5

/-- The snapshot is offered exactly after a cycle that invoked 00E0 or DXYN, and is the display at the end of that cycle;
where none is offered the STEP left the display as it was. -/
def Obligations.SnapshotAfterDrawOrClear : Prop :=
  ∀ s t : State, step s = .next t →
    (snapshotOf s t = some t.disp ↔ invoked s = some .cls ∨ ∃ x y n, invoked s = some (.drw x y n)) ∧
    (snapshotOf s t = none → t.disp = s.disp)

/-! ### Rules of the whole machine -/

/-- The reset state meets the invariant (the values after LOAD: D3, D19, log 5, log 16; the invariant's clauses: see
StepKeepsInvariant). -/
def Obligations.ResetMeetsInvariant : Prop := Inv State.reset

/-- Every STEP keeps the invariant: memory canonical and inside 4 KiB, 0 ≤ SP ≤ 16, return addresses at most 0x1000, pc
at most 0x10FE, STATUS and the recorded error in agreement. Of its clauses the canonical memory is the model's form
(log 6, DESIGN CHOICE); the bound on pc rests on D10 (log 25), that SP counts the stack's entries on D7 (log 29), that
a stopped core stays so on D5 (log 21), the record of a halt on D4 (log 10), that of a fatal error on D6, D9 and D13
(log 18, 11, 17, 28), the codes and the values without error on D3 (log 30). -/
def Obligations.StepKeepsInvariant : Prop :=
  ∀ s t : State, Inv s → step s = .next t → Inv t

/-- From a state that meets the invariant every schedule of LOAD, STEP and TICK runs to its end, and ends in such a
state: no error stops the machine (a refused LOAD leaves the state as it was, D20, log 19; the schedule is free, D17,
D30, log 7). Of the invariant's clauses the canonical memory is the model's form (log 6, DESIGN CHOICE); the bound on
pc rests on D10 (log 25), that SP counts the stack's entries on D7 (log 29), that a stopped core stays so on D5 (log
21), the record of a halt on D4 (log 10), that of a fatal error on D6, D9 and D13 (log 18, 11, 17, 28), the codes and
the values without error on D3 (log 30). -/
def Obligations.EverySchedulePreservesInvariant : Prop :=
  ∀ (rs : List Request) (s : State), Inv s → ∃ t, serveAll rs s = .next t ∧ Inv t

/-- Where SP is legal every instruction and every STEP answers a next state: nothing stops or is refused. -/
def Obligations.StepAlwaysAnswers : Prop :=
  ∀ s : State, s.sp.toNat ≤ 16 → (∃ t, step s = .next t) ∧ ∀ i, ∃ t, exec i s = .next t

/-- Who may write what: a general register, I, SP and the stack, DT, ST, memory and the display are each changed only
by the instructions the spec names as their writers. -/
def Obligations.OnlyNamedInstructionsWrite : Prop :=
  ∀ (i : Instr) (s t : State), exec i s = .next t →
    (∀ r, t.readV r ≠ s.readV r → writesReg i r = true) ∧ (t.i ≠ s.i → writesIndex i = true) ∧
    (t.sp ≠ s.sp ∨ t.stack ≠ s.stack → movesStack i = true) ∧ (t.dt ≠ s.dt → ∃ x, i = .ldDt x) ∧
    (t.st ≠ s.st → ∃ x, i = .ldSt x) ∧ (t.mem ≠ s.mem → writesMemory i = true) ∧
    (t.disp ≠ s.disp → drawsOrClears i = true)

/-- Who may leave pc other than the fetch did: the instructions named, or one that ended FATAL. -/
def Obligations.OnlyControlTransfersSetPc : Prop :=
  ∀ (i : Instr) (s t : State), s.status = .running → exec i s = .next t → t.pc ≠ s.pc →
    setsPc i = true ∨ (t.status = .fatal ∧ t.pc = s.pc - 2)

/-- Who may raise what: an execute phase that leaves the core not running leaves it FATAL, with a cause the instruction may
raise and a FAULT_INFO that fits the cause (D3, D9, D13). -/
def Obligations.OnlyNamedInstructionsRaise : Prop :=
  ∀ (i : Instr) (s t : State), s.status = .running → exec i s = .next t → t.status ≠ .running →
    t.status = .fatal ∧ mayRaise i t.cause = true ∧ infoFits t.cause t.faultInfo = true

/-- Fatal errors are precise: after a STEP that ends FATAL everything but STATUS, CAUSE and the FAULT fields is as before
the STEP, pc included, and FAULT_PC and FAULT_OP are the address and the word of the faulting instruction (D6). -/
def Obligations.FatalStepIsPrecise : Prop :=
  ∀ s t : State, s.status = .running → step s = .next t → t.status = .fatal →
    t.faultPc = s.pc ∧ t.faultOp = fetchWord s ∧ (∃ i, decode (fetchWord s) = .ok i ∧ mayRaise i t.cause = true) ∧
    { t with status := s.status, cause := s.cause, faultPc := s.faultPc, faultOp := s.faultOp,
             faultInfo := s.faultInfo } = s

/-- ST never influences the core: two cores that differ in ST alone still differ in ST alone after a STEP. -/
def Obligations.SoundTimerNeverObserved : Prop :=
  ∀ (s t : State) (b : Byte), step s = .next t → ∃ c, step { s with st := b } = .next { t with st := c }

/-- The lit pixels never influence the core beyond the display and VF: two cores that differ in the display alone agree,
after a STEP, on everything but the display and VF. -/
def Obligations.DisplayReachesOnlyTheFlag : Prop :=
  ∀ (s t : State) (d : Display), step s = .next t → ∃ (d' : Display) (f : Byte),
    step { s with disp := d } = .next ({ t with disp := d' }.writeV 0xF#4 f)

/-- Draws are counted once each and never used twice (the model's own counter, log 4): an execute phase counts one draw
exactly where the instruction queries a collaborator, and no request takes the count back. -/
def Obligations.DrawsAreNeverReused : Prop :=
  (∀ (i : Instr) (s t : State), exec i s = .next t → t.draws = s.draws + if takesDraw s i then 1 else 0) ∧
  (∀ (r : Request) (s t : State), serve r s = .next t → s.draws ≤ t.draws)
end

