-- ==== Sys2Proof/Laws/Decode.lean ====
section
/-! SUPPORT. The laws of words and their fields: a field of a packed word is what was packed, and a word is its fields
packed. -/

namespace Sys2Proof

/-! ### Fields of packed words -/

@[simp] theorem familyField_packNNN (f : BitVec 4) (a : Addr12) : familyField (packNNN f a) = f := by
  simp only [familyField, packNNN]; ext k hk; simp; grind

@[simp] theorem nnnField_packNNN (f : BitVec 4) (a : Addr12) : nnnField (packNNN f a) = a := by
  simp only [nnnField, packNNN]; ext k hk; simp; grind

@[simp] theorem familyField_packXNN (f : BitVec 4) (x : Reg) (nn : Byte) : familyField (packXNN f x nn) = f := by
  simp only [familyField, packXNN]; ext k hk; simp; grind

@[simp] theorem xField_packXNN (f : BitVec 4) (x : Reg) (nn : Byte) : xField (packXNN f x nn) = x := by
  simp only [xField, packXNN]; ext k hk; simp; grind

@[simp] theorem nnField_packXNN (f : BitVec 4) (x : Reg) (nn : Byte) : nnField (packXNN f x nn) = nn := by
  simp only [nnField, packXNN]; ext k hk; simp; grind

@[simp] theorem familyField_packXYN (f : BitVec 4) (x y : Reg) (n : BitVec 4) : familyField (packXYN f x y n) = f := by
  simp only [familyField, packXYN]; ext k hk; simp; grind

@[simp] theorem xField_packXYN (f : BitVec 4) (x y : Reg) (n : BitVec 4) : xField (packXYN f x y n) = x := by
  simp only [xField, packXYN]; ext k hk; simp; grind

@[simp] theorem yField_packXYN (f : BitVec 4) (x y : Reg) (n : BitVec 4) : yField (packXYN f x y n) = y := by
  simp only [yField, packXYN]; ext k hk; simp; grind

@[simp] theorem nField_packXYN (f : BitVec 4) (x y : Reg) (n : BitVec 4) : nField (packXYN f x y n) = n := by
  simp only [nField, packXYN]; ext k hk; simp; grind

/-! ### A word is its fields packed -/

theorem packNNN_fields (w : Word) : packNNN (familyField w) (nnnField w) = w := by
  simp only [familyField, nnnField, packNNN]; ext k hk; simp; grind

theorem packXNN_fields (w : Word) : packXNN (familyField w) (xField w) (nnField w) = w := by
  simp only [familyField, xField, nnField, packXNN]; ext k hk; simp; grind

theorem packXYN_fields (w : Word) : packXYN (familyField w) (xField w) (yField w) (nField w) = w := by
  simp only [familyField, xField, yField, nField, packXYN]; ext k hk; simp; grind

/-! ### Fields as numbers -/

theorem familyField_toNat (w : Word) : (familyField w).toNat = w.toNat / 4096 := by
  have := w.isLt; simp [familyField, BitVec.extractLsb'_toNat, Nat.shiftRight_eq_div_pow]; omega

theorem nField_toNat (w : Word) : (nField w).toNat = w.toNat % 16 := by
  simp [nField, BitVec.extractLsb'_toNat]

theorem nnField_toNat (w : Word) : (nnField w).toNat = w.toNat % 256 := by
  simp [nnField, BitVec.extractLsb'_toNat]

/-! ### Bytes -/

@[simp] theorem wordOfBytes_bytes (w : Word) : wordOfBytes (highByte w) (lowByte w) = w := by
  simp only [wordOfBytes, highByte, lowByte]; ext k hk; simp; grind

@[simp] theorem highByte_wordOfBytes (hi lo : Byte) : highByte (wordOfBytes hi lo) = hi := by
  simp only [wordOfBytes, highByte]; ext k hk; simp; grind

@[simp] theorem lowByte_wordOfBytes (hi lo : Byte) : lowByte (wordOfBytes hi lo) = lo := by
  simp only [wordOfBytes, lowByte]; ext k hk; simp; grind

/-- The big-endian combination as a number (30_encoding.md R75). -/
theorem wordOfBytes_toNat (hi lo : Byte) : (wordOfBytes hi lo).toNat = hi.toNat * 256 + lo.toNat := by
  have h1 : (wordOfBytes hi lo).toNat = (hi.toNat <<< 8) ||| lo.toNat := BitVec.toNat_append hi lo
  have h2 : lo.toNat < 2 ^ 8 := lo.isLt
  rw [h1, Nat.shiftLeft_eq, ← Nat.shiftLeft_eq, ← Nat.shiftLeft_add_eq_or_of_lt h2, Nat.shiftLeft_eq]

end Sys2Proof
end

