-- ==== Sys2Proof/Laws/Memory.lean ====
section
/-! SUPPORT. The laws of memory cells: a read after a write, and every write keeps the canonical form. -/

namespace Sys2Proof.Machine

theorem Memory.wfFrom_cons {lo a : Nat} {b : Byte} {m : Memory} :
    Memory.wfFrom lo ((a, b) :: m) = true ↔ lo ≤ a ∧ a < 0x1000 ∧ b ≠ 0#8 ∧ Memory.wfFrom (a + 1) m = true := by
  simp [Memory.wfFrom, and_assoc]

theorem Memory.wfFrom_of_le {lo lo' : Nat} {m : Memory} (h : Memory.wfFrom lo m = true) (hle : lo' ≤ lo) :
    Memory.wfFrom lo' m = true := by
  cases m with
  | nil => rfl
  | cons c m =>
    obtain ⟨h1, h2⟩ := Memory.wfFrom_cons.mp h
    exact Memory.wfFrom_cons.mpr ⟨hle.trans h1, h2⟩

/-- Nothing is listed below the first address. -/
theorem Memory.read_below {m : Memory} {lo a : Nat} (h : Memory.wfFrom lo m = true) (ha : a < lo) : Memory.read m a = 0#8 := by
  induction m generalizing lo with
  | nil => rfl
  | cons c m ih =>
    obtain ⟨h1, -, -, h4⟩ := Memory.wfFrom_cons.mp h
    have hne : a ≠ c.1 := by omega
    simpa [Memory.read, hne] using ih h4 (by omega)

/-- Nothing is listed above the last address of memory. -/
theorem Memory.read_outside {m : Memory} {lo a : Nat} (h : Memory.wfFrom lo m = true) (ha : 0x1000 ≤ a) :
    Memory.read m a = 0#8 := by
  induction m generalizing lo with
  | nil => rfl
  | cons c m ih =>
    obtain ⟨-, h2, -, h4⟩ := Memory.wfFrom_cons.mp h
    have hne : a ≠ c.1 := by omega
    simpa [Memory.read, hne] using ih h4

/-- A write inside memory keeps the canonical form. -/
theorem Memory.wfFrom_write {m : Memory} {lo a : Nat} (v : Byte) (h : Memory.wfFrom lo m = true) (hlo : lo ≤ a)
    (ha : a < 0x1000) : Memory.wfFrom lo (Memory.write m a v) = true := by
  induction m generalizing lo with
  | nil =>
    by_cases hv : v = 0#8
    · simp [Memory.write, hv, Memory.wfFrom]
    · simp [Memory.write, hv, Memory.wfFrom, hlo, ha]
  | cons c m ih =>
    obtain ⟨b, w⟩ := c
    obtain ⟨h1, h2, h3, h4⟩ := Memory.wfFrom_cons.mp h
    rcases Nat.lt_trichotomy a b with hab | rfl | hab
    · by_cases hv : v = 0#8
      · simpa [Memory.write, hab, hv] using h
      · simp only [Memory.write, hab, hv, if_true, if_false]
        exact Memory.wfFrom_cons.mpr ⟨hlo, ha, hv, Memory.wfFrom_cons.mpr ⟨hab, h2, h3, h4⟩⟩
    · by_cases hv : v = 0#8
      · simpa [Memory.write, hv] using Memory.wfFrom_of_le h4 (by omega)
      · simp only [Memory.write, lt_irrefl, hv, if_true, if_false]
        exact Memory.wfFrom_cons.mpr ⟨hlo, ha, hv, h4⟩
    · have hn : ¬ a < b := by omega
      have he : a ≠ b := by omega
      simp only [Memory.write, hn, he, if_false]
      exact Memory.wfFrom_cons.mpr ⟨h1, h2, h3, ih h4 hab⟩

theorem Memory.wf_write {m : Memory} {a : Nat} (v : Byte) (h : Memory.wf m = true) (ha : a < 0x1000) :
    Memory.wf (Memory.write m a v) = true :=
  Memory.wfFrom_write v h (Nat.zero_le a) ha

/-- A read after a write: the written byte at its address, every other address as before. -/
theorem Memory.read_write_from {m : Memory} {lo : Nat} (a b : Nat) (v : Byte) (h : Memory.wfFrom lo m = true) :
    Memory.read (Memory.write m a v) b = if b = a then v else Memory.read m b := by
  induction m generalizing lo with
  | nil =>
    by_cases hv : v = 0#8
    · simp [Memory.write, Memory.read, hv]
    · simp [Memory.write, Memory.read, hv]
  | cons c m ih =>
    obtain ⟨d, w⟩ := c
    obtain ⟨h1, h2, h3, h4⟩ := Memory.wfFrom_cons.mp h
    rcases Nat.lt_trichotomy a d with had | rfl | had
    · by_cases hv : v = 0#8
      · by_cases hb : b = a
        · subst hb
          have hne : b ≠ d := by omega
          simp [Memory.write, had, hv, Memory.read, hne, Memory.read_below h4 (show b < d + 1 by omega)]
        · simp [Memory.write, had, hv, hb]
      · simp [Memory.write, had, hv, Memory.read]
    · by_cases hv : v = 0#8
      · by_cases hb : b = a
        · subst hb
          simp [Memory.write, hv, Memory.read_below h4 (show b < b + 1 by omega)]
        · simp [Memory.write, hv, hb, Memory.read]
      · by_cases hb : b = a <;> simp [Memory.write, hv, hb, Memory.read]
    · have hn : ¬ a < d := by omega
      have he : a ≠ d := by omega
      by_cases hb : b = d
      · subst hb
        have : b ≠ a := fun e => he e.symm
        simp [Memory.write, hn, he, Memory.read, this]
      · simp only [Memory.write, hn, he, if_false, Memory.read, hb]
        exact ih h4

theorem Memory.read_write {m : Memory} (a b : Nat) (v : Byte) (h : Memory.wf m = true) :
    Memory.read (Memory.write m a v) b = if b = a then v else Memory.read m b :=
  Memory.read_write_from a b v h

/-- Equal memories are equal data: two canonical memories that read the same everywhere are the same list. -/
theorem Memory.eq_of_read_eq {m n : Memory} {lo lo' : Nat} (hm : Memory.wfFrom lo m = true)
    (hn : Memory.wfFrom lo' n = true) (h : ∀ a, Memory.read m a = Memory.read n a) : m = n := by
  induction m generalizing lo lo' n with
  | nil =>
    cases n with
    | nil => rfl
    | cons c n =>
      obtain ⟨-, -, h3, -⟩ := Memory.wfFrom_cons.mp hn
      exact absurd (h c.1).symm (by simpa [Memory.read] using h3)
  | cons c m ih =>
    obtain ⟨a, v⟩ := c
    obtain ⟨-, -, hv, hm'⟩ := Memory.wfFrom_cons.mp hm
    cases n with
    | nil => exact absurd (h a) (by simpa [Memory.read] using hv)
    | cons d n =>
      obtain ⟨b, w⟩ := d
      obtain ⟨-, -, hw, hn'⟩ := Memory.wfFrom_cons.mp hn
      have hab : a = b := by
        rcases Nat.lt_trichotomy a b with hl | he | hl
        · have := h a
          simp [Memory.read, Nat.ne_of_lt hl, Memory.read_below hn' (show a < b + 1 by omega)] at this
          exact absurd this hv
        · exact he
        · have := h b
          simp [Memory.read, Nat.ne_of_lt hl, Memory.read_below hm' (show b < a + 1 by omega)] at this
          exact absurd this.symm hw
      subst hab
      have hvw : v = w := by simpa [Memory.read] using h a
      subst hvw
      have hrest : m = n := ih hm' hn' fun q => by
        by_cases hq : q = a
        · subst hq
          rw [Memory.read_below hm' (by omega), Memory.read_below hn' (by omega)]
        · simpa [Memory.read, hq] using h q
      rw [hrest]

/-- Placing bytes keeps the canonical form where they fit. -/
theorem Memory.wf_place {m : Memory} {a : Nat} (bs : List Byte) (h : Memory.wf m = true) (hfit : a + bs.length ≤ 0x1000) :
    Memory.wf (Memory.place m a bs) = true := by
  induction bs generalizing m a with
  | nil => exact h
  | cons b bs ih =>
    simp only [List.length_cons] at hfit
    exact ih (Memory.wf_write b h (by omega)) (by omega)

/-- What a byte reads after bytes were placed: the placed one inside their range, else as before. -/
theorem Memory.read_place {m : Memory} {a : Nat} (bs : List Byte) (q : Nat) (h : Memory.wf m = true)
    (hfit : a + bs.length ≤ 0x1000) :
    Memory.read (Memory.place m a bs) q = if a ≤ q ∧ q < a + bs.length then bs.getD (q - a) 0 else Memory.read m q := by
  induction bs generalizing m a with
  | nil => simp [Memory.place]
  | cons b bs ih =>
    simp only [List.length_cons] at hfit
    have hw := Memory.wf_write b h (show a < 0x1000 by omega)
    rw [Memory.place, ih hw (by omega), Memory.read_write a q b h]
    by_cases hqa : q = a
    · subst hqa
      have : ¬ (q + 1 ≤ q ∧ q < q + 1 + bs.length) := by omega
      simp
    · by_cases hin : a + 1 ≤ q ∧ q < a + 1 + bs.length
      · have h1 : a ≤ q ∧ q < a + (bs.length + 1) := by omega
        obtain ⟨k, hk⟩ : ∃ k, q - a = k + 1 := ⟨q - a - 1, by omega⟩
        have hk' : q - (a + 1) = k := by omega
        simp [hin, h1, hk, hk']
      · have h1 : ¬ (a ≤ q ∧ q < a + (bs.length + 1)) := by omega
        rw [if_neg hin, if_neg hqa, List.length_cons, if_neg h1]

end Sys2Proof.Machine
end

