-- ==== Sys2Proof/Laws/State.lean ====
section
/-! SUPPORT. One lemma per field per update of the state, each true by unfolding the update, so that no later proof
unfolds one. -/

namespace Sys2Proof.Machine

variable (s : State)

/-! ### `writeV` -/

@[simp] theorem State.writeV_i (r : Reg) (b : Byte) : (s.writeV r b).i = s.i := rfl
@[simp] theorem State.writeV_pc (r : Reg) (b : Byte) : (s.writeV r b).pc = s.pc := rfl
@[simp] theorem State.writeV_sp (r : Reg) (b : Byte) : (s.writeV r b).sp = s.sp := rfl
@[simp] theorem State.writeV_stack (r : Reg) (b : Byte) : (s.writeV r b).stack = s.stack := rfl
@[simp] theorem State.writeV_dt (r : Reg) (b : Byte) : (s.writeV r b).dt = s.dt := rfl
@[simp] theorem State.writeV_st (r : Reg) (b : Byte) : (s.writeV r b).st = s.st := rfl
@[simp] theorem State.writeV_mem (r : Reg) (b : Byte) : (s.writeV r b).mem = s.mem := rfl
@[simp] theorem State.writeV_disp (r : Reg) (b : Byte) : (s.writeV r b).disp = s.disp := rfl
@[simp] theorem State.writeV_status (r : Reg) (b : Byte) : (s.writeV r b).status = s.status := rfl
@[simp] theorem State.writeV_cause (r : Reg) (b : Byte) : (s.writeV r b).cause = s.cause := rfl
@[simp] theorem State.writeV_faultPc (r : Reg) (b : Byte) : (s.writeV r b).faultPc = s.faultPc := rfl
@[simp] theorem State.writeV_faultOp (r : Reg) (b : Byte) : (s.writeV r b).faultOp = s.faultOp := rfl
@[simp] theorem State.writeV_faultInfo (r : Reg) (b : Byte) : (s.writeV r b).faultInfo = s.faultInfo := rfl
@[simp] theorem State.writeV_draws (r : Reg) (b : Byte) : (s.writeV r b).draws = s.draws := rfl

/-! ### `writeFlag` -/

@[simp] theorem State.writeFlag_i (c : Bool) : (s.writeFlag c).i = s.i := rfl
@[simp] theorem State.writeFlag_pc (c : Bool) : (s.writeFlag c).pc = s.pc := rfl
@[simp] theorem State.writeFlag_sp (c : Bool) : (s.writeFlag c).sp = s.sp := rfl
@[simp] theorem State.writeFlag_stack (c : Bool) : (s.writeFlag c).stack = s.stack := rfl
@[simp] theorem State.writeFlag_dt (c : Bool) : (s.writeFlag c).dt = s.dt := rfl
@[simp] theorem State.writeFlag_st (c : Bool) : (s.writeFlag c).st = s.st := rfl
@[simp] theorem State.writeFlag_mem (c : Bool) : (s.writeFlag c).mem = s.mem := rfl
@[simp] theorem State.writeFlag_disp (c : Bool) : (s.writeFlag c).disp = s.disp := rfl
@[simp] theorem State.writeFlag_status (c : Bool) : (s.writeFlag c).status = s.status := rfl
@[simp] theorem State.writeFlag_cause (c : Bool) : (s.writeFlag c).cause = s.cause := rfl
@[simp] theorem State.writeFlag_faultPc (c : Bool) : (s.writeFlag c).faultPc = s.faultPc := rfl
@[simp] theorem State.writeFlag_faultOp (c : Bool) : (s.writeFlag c).faultOp = s.faultOp := rfl
@[simp] theorem State.writeFlag_faultInfo (c : Bool) : (s.writeFlag c).faultInfo = s.faultInfo := rfl
@[simp] theorem State.writeFlag_draws (c : Bool) : (s.writeFlag c).draws = s.draws := rfl

/-! ### `writeResultThenFlag` -/

@[simp] theorem State.writeResultThenFlag_i (x : Reg) (b : Byte) (c : Bool) : (s.writeResultThenFlag x b c).i = s.i := rfl
@[simp] theorem State.writeResultThenFlag_pc (x : Reg) (b : Byte) (c : Bool) : (s.writeResultThenFlag x b c).pc = s.pc := rfl
@[simp] theorem State.writeResultThenFlag_sp (x : Reg) (b : Byte) (c : Bool) : (s.writeResultThenFlag x b c).sp = s.sp := rfl
@[simp] theorem State.writeResultThenFlag_stack (x : Reg) (b : Byte) (c : Bool) : (s.writeResultThenFlag x b c).stack = s.stack := rfl
@[simp] theorem State.writeResultThenFlag_dt (x : Reg) (b : Byte) (c : Bool) : (s.writeResultThenFlag x b c).dt = s.dt := rfl
@[simp] theorem State.writeResultThenFlag_st (x : Reg) (b : Byte) (c : Bool) : (s.writeResultThenFlag x b c).st = s.st := rfl
@[simp] theorem State.writeResultThenFlag_mem (x : Reg) (b : Byte) (c : Bool) : (s.writeResultThenFlag x b c).mem = s.mem := rfl
@[simp] theorem State.writeResultThenFlag_disp (x : Reg) (b : Byte) (c : Bool) : (s.writeResultThenFlag x b c).disp = s.disp := rfl
@[simp] theorem State.writeResultThenFlag_status (x : Reg) (b : Byte) (c : Bool) : (s.writeResultThenFlag x b c).status = s.status := rfl
@[simp] theorem State.writeResultThenFlag_cause (x : Reg) (b : Byte) (c : Bool) : (s.writeResultThenFlag x b c).cause = s.cause := rfl
@[simp] theorem State.writeResultThenFlag_faultPc (x : Reg) (b : Byte) (c : Bool) : (s.writeResultThenFlag x b c).faultPc = s.faultPc := rfl
@[simp] theorem State.writeResultThenFlag_faultOp (x : Reg) (b : Byte) (c : Bool) : (s.writeResultThenFlag x b c).faultOp = s.faultOp := rfl
@[simp] theorem State.writeResultThenFlag_faultInfo (x : Reg) (b : Byte) (c : Bool) : (s.writeResultThenFlag x b c).faultInfo = s.faultInfo := rfl
@[simp] theorem State.writeResultThenFlag_draws (x : Reg) (b : Byte) (c : Bool) : (s.writeResultThenFlag x b c).draws = s.draws := rfl

/-! ### `shiftRight` -/

@[simp] theorem State.shiftRight_i (x : Reg) : (s.shiftRight x).i = s.i := rfl
@[simp] theorem State.shiftRight_pc (x : Reg) : (s.shiftRight x).pc = s.pc := rfl
@[simp] theorem State.shiftRight_sp (x : Reg) : (s.shiftRight x).sp = s.sp := rfl
@[simp] theorem State.shiftRight_stack (x : Reg) : (s.shiftRight x).stack = s.stack := rfl
@[simp] theorem State.shiftRight_dt (x : Reg) : (s.shiftRight x).dt = s.dt := rfl
@[simp] theorem State.shiftRight_st (x : Reg) : (s.shiftRight x).st = s.st := rfl
@[simp] theorem State.shiftRight_mem (x : Reg) : (s.shiftRight x).mem = s.mem := rfl
@[simp] theorem State.shiftRight_disp (x : Reg) : (s.shiftRight x).disp = s.disp := rfl
@[simp] theorem State.shiftRight_status (x : Reg) : (s.shiftRight x).status = s.status := rfl
@[simp] theorem State.shiftRight_cause (x : Reg) : (s.shiftRight x).cause = s.cause := rfl
@[simp] theorem State.shiftRight_faultPc (x : Reg) : (s.shiftRight x).faultPc = s.faultPc := rfl
@[simp] theorem State.shiftRight_faultOp (x : Reg) : (s.shiftRight x).faultOp = s.faultOp := rfl
@[simp] theorem State.shiftRight_faultInfo (x : Reg) : (s.shiftRight x).faultInfo = s.faultInfo := rfl
@[simp] theorem State.shiftRight_draws (x : Reg) : (s.shiftRight x).draws = s.draws := rfl

/-! ### `shiftLeft` -/

@[simp] theorem State.shiftLeft_i (x : Reg) : (s.shiftLeft x).i = s.i := rfl
@[simp] theorem State.shiftLeft_pc (x : Reg) : (s.shiftLeft x).pc = s.pc := rfl
@[simp] theorem State.shiftLeft_sp (x : Reg) : (s.shiftLeft x).sp = s.sp := rfl
@[simp] theorem State.shiftLeft_stack (x : Reg) : (s.shiftLeft x).stack = s.stack := rfl
@[simp] theorem State.shiftLeft_dt (x : Reg) : (s.shiftLeft x).dt = s.dt := rfl
@[simp] theorem State.shiftLeft_st (x : Reg) : (s.shiftLeft x).st = s.st := rfl
@[simp] theorem State.shiftLeft_mem (x : Reg) : (s.shiftLeft x).mem = s.mem := rfl
@[simp] theorem State.shiftLeft_disp (x : Reg) : (s.shiftLeft x).disp = s.disp := rfl
@[simp] theorem State.shiftLeft_status (x : Reg) : (s.shiftLeft x).status = s.status := rfl
@[simp] theorem State.shiftLeft_cause (x : Reg) : (s.shiftLeft x).cause = s.cause := rfl
@[simp] theorem State.shiftLeft_faultPc (x : Reg) : (s.shiftLeft x).faultPc = s.faultPc := rfl
@[simp] theorem State.shiftLeft_faultOp (x : Reg) : (s.shiftLeft x).faultOp = s.faultOp := rfl
@[simp] theorem State.shiftLeft_faultInfo (x : Reg) : (s.shiftLeft x).faultInfo = s.faultInfo := rfl
@[simp] theorem State.shiftLeft_draws (x : Reg) : (s.shiftLeft x).draws = s.draws := rfl

/-! ### `maskRandom` -/

@[simp] theorem State.maskRandom_i (x : Reg) (nn r : Byte) : (s.maskRandom x nn r).i = s.i := rfl
@[simp] theorem State.maskRandom_pc (x : Reg) (nn r : Byte) : (s.maskRandom x nn r).pc = s.pc := rfl
@[simp] theorem State.maskRandom_sp (x : Reg) (nn r : Byte) : (s.maskRandom x nn r).sp = s.sp := rfl
@[simp] theorem State.maskRandom_stack (x : Reg) (nn r : Byte) : (s.maskRandom x nn r).stack = s.stack := rfl
@[simp] theorem State.maskRandom_dt (x : Reg) (nn r : Byte) : (s.maskRandom x nn r).dt = s.dt := rfl
@[simp] theorem State.maskRandom_st (x : Reg) (nn r : Byte) : (s.maskRandom x nn r).st = s.st := rfl
@[simp] theorem State.maskRandom_mem (x : Reg) (nn r : Byte) : (s.maskRandom x nn r).mem = s.mem := rfl
@[simp] theorem State.maskRandom_disp (x : Reg) (nn r : Byte) : (s.maskRandom x nn r).disp = s.disp := rfl
@[simp] theorem State.maskRandom_status (x : Reg) (nn r : Byte) : (s.maskRandom x nn r).status = s.status := rfl
@[simp] theorem State.maskRandom_cause (x : Reg) (nn r : Byte) : (s.maskRandom x nn r).cause = s.cause := rfl
@[simp] theorem State.maskRandom_faultPc (x : Reg) (nn r : Byte) : (s.maskRandom x nn r).faultPc = s.faultPc := rfl
@[simp] theorem State.maskRandom_faultOp (x : Reg) (nn r : Byte) : (s.maskRandom x nn r).faultOp = s.faultOp := rfl
@[simp] theorem State.maskRandom_faultInfo (x : Reg) (nn r : Byte) : (s.maskRandom x nn r).faultInfo = s.faultInfo := rfl
@[simp] theorem State.maskRandom_draws (x : Reg) (nn r : Byte) : (s.maskRandom x nn r).draws = s.draws := rfl

/-! ### `drawSprite` -/

@[simp] theorem State.drawSprite_i (ox oy : Byte) (rows : List Byte) : (s.drawSprite ox oy rows).i = s.i := rfl
@[simp] theorem State.drawSprite_pc (ox oy : Byte) (rows : List Byte) : (s.drawSprite ox oy rows).pc = s.pc := rfl
@[simp] theorem State.drawSprite_sp (ox oy : Byte) (rows : List Byte) : (s.drawSprite ox oy rows).sp = s.sp := rfl
@[simp] theorem State.drawSprite_stack (ox oy : Byte) (rows : List Byte) : (s.drawSprite ox oy rows).stack = s.stack := rfl
@[simp] theorem State.drawSprite_dt (ox oy : Byte) (rows : List Byte) : (s.drawSprite ox oy rows).dt = s.dt := rfl
@[simp] theorem State.drawSprite_st (ox oy : Byte) (rows : List Byte) : (s.drawSprite ox oy rows).st = s.st := rfl
@[simp] theorem State.drawSprite_mem (ox oy : Byte) (rows : List Byte) : (s.drawSprite ox oy rows).mem = s.mem := rfl
@[simp] theorem State.drawSprite_status (ox oy : Byte) (rows : List Byte) : (s.drawSprite ox oy rows).status = s.status := rfl
@[simp] theorem State.drawSprite_cause (ox oy : Byte) (rows : List Byte) : (s.drawSprite ox oy rows).cause = s.cause := rfl
@[simp] theorem State.drawSprite_faultPc (ox oy : Byte) (rows : List Byte) : (s.drawSprite ox oy rows).faultPc = s.faultPc := rfl
@[simp] theorem State.drawSprite_faultOp (ox oy : Byte) (rows : List Byte) : (s.drawSprite ox oy rows).faultOp = s.faultOp := rfl
@[simp] theorem State.drawSprite_faultInfo (ox oy : Byte) (rows : List Byte) : (s.drawSprite ox oy rows).faultInfo = s.faultInfo := rfl
@[simp] theorem State.drawSprite_draws (ox oy : Byte) (rows : List Byte) : (s.drawSprite ox oy rows).draws = s.draws := rfl

/-! ### `jump` -/

@[simp] theorem State.jump_v (a : Word) : (s.jump a).v = s.v := rfl
@[simp] theorem State.jump_i (a : Word) : (s.jump a).i = s.i := rfl
@[simp] theorem State.jump_pc (a : Word) : (s.jump a).pc = a := rfl
@[simp] theorem State.jump_sp (a : Word) : (s.jump a).sp = s.sp := rfl
@[simp] theorem State.jump_stack (a : Word) : (s.jump a).stack = s.stack := rfl
@[simp] theorem State.jump_dt (a : Word) : (s.jump a).dt = s.dt := rfl
@[simp] theorem State.jump_st (a : Word) : (s.jump a).st = s.st := rfl
@[simp] theorem State.jump_mem (a : Word) : (s.jump a).mem = s.mem := rfl
@[simp] theorem State.jump_disp (a : Word) : (s.jump a).disp = s.disp := rfl
@[simp] theorem State.jump_status (a : Word) : (s.jump a).status = s.status := rfl
@[simp] theorem State.jump_cause (a : Word) : (s.jump a).cause = s.cause := rfl
@[simp] theorem State.jump_faultPc (a : Word) : (s.jump a).faultPc = s.faultPc := rfl
@[simp] theorem State.jump_faultOp (a : Word) : (s.jump a).faultOp = s.faultOp := rfl
@[simp] theorem State.jump_faultInfo (a : Word) : (s.jump a).faultInfo = s.faultInfo := rfl
@[simp] theorem State.jump_draws (a : Word) : (s.jump a).draws = s.draws := rfl

/-! ### `skip` -/

@[simp] theorem State.skip_v : (s.skip).v = s.v := rfl
@[simp] theorem State.skip_i : (s.skip).i = s.i := rfl
@[simp] theorem State.skip_pc : (s.skip).pc = s.pc + 2 := rfl
@[simp] theorem State.skip_sp : (s.skip).sp = s.sp := rfl
@[simp] theorem State.skip_stack : (s.skip).stack = s.stack := rfl
@[simp] theorem State.skip_dt : (s.skip).dt = s.dt := rfl
@[simp] theorem State.skip_st : (s.skip).st = s.st := rfl
@[simp] theorem State.skip_mem : (s.skip).mem = s.mem := rfl
@[simp] theorem State.skip_disp : (s.skip).disp = s.disp := rfl
@[simp] theorem State.skip_status : (s.skip).status = s.status := rfl
@[simp] theorem State.skip_cause : (s.skip).cause = s.cause := rfl
@[simp] theorem State.skip_faultPc : (s.skip).faultPc = s.faultPc := rfl
@[simp] theorem State.skip_faultOp : (s.skip).faultOp = s.faultOp := rfl
@[simp] theorem State.skip_faultInfo : (s.skip).faultInfo = s.faultInfo := rfl
@[simp] theorem State.skip_draws : (s.skip).draws = s.draws := rfl

/-! ### `drawn` -/

@[simp] theorem State.drawn_v : (s.drawn).v = s.v := rfl
@[simp] theorem State.drawn_i : (s.drawn).i = s.i := rfl
@[simp] theorem State.drawn_pc : (s.drawn).pc = s.pc := rfl
@[simp] theorem State.drawn_sp : (s.drawn).sp = s.sp := rfl
@[simp] theorem State.drawn_stack : (s.drawn).stack = s.stack := rfl
@[simp] theorem State.drawn_dt : (s.drawn).dt = s.dt := rfl
@[simp] theorem State.drawn_st : (s.drawn).st = s.st := rfl
@[simp] theorem State.drawn_mem : (s.drawn).mem = s.mem := rfl
@[simp] theorem State.drawn_disp : (s.drawn).disp = s.disp := rfl
@[simp] theorem State.drawn_status : (s.drawn).status = s.status := rfl
@[simp] theorem State.drawn_cause : (s.drawn).cause = s.cause := rfl
@[simp] theorem State.drawn_faultPc : (s.drawn).faultPc = s.faultPc := rfl
@[simp] theorem State.drawn_faultOp : (s.drawn).faultOp = s.faultOp := rfl
@[simp] theorem State.drawn_faultInfo : (s.drawn).faultInfo = s.faultInfo := rfl
@[simp] theorem State.drawn_draws : (s.drawn).draws = s.draws + 1 := rfl

/-! ### `fatalEntry` -/

@[simp] theorem fatalEntry_v (op : Word) (e : Raise) : (fatalEntry op e s).v = s.v := rfl
@[simp] theorem fatalEntry_i (op : Word) (e : Raise) : (fatalEntry op e s).i = s.i := rfl
@[simp] theorem fatalEntry_pc (op : Word) (e : Raise) : (fatalEntry op e s).pc = s.pc - 2 := rfl
@[simp] theorem fatalEntry_sp (op : Word) (e : Raise) : (fatalEntry op e s).sp = s.sp := rfl
@[simp] theorem fatalEntry_stack (op : Word) (e : Raise) : (fatalEntry op e s).stack = s.stack := rfl
@[simp] theorem fatalEntry_dt (op : Word) (e : Raise) : (fatalEntry op e s).dt = s.dt := rfl
@[simp] theorem fatalEntry_st (op : Word) (e : Raise) : (fatalEntry op e s).st = s.st := rfl
@[simp] theorem fatalEntry_mem (op : Word) (e : Raise) : (fatalEntry op e s).mem = s.mem := rfl
@[simp] theorem fatalEntry_disp (op : Word) (e : Raise) : (fatalEntry op e s).disp = s.disp := rfl
@[simp] theorem fatalEntry_status (op : Word) (e : Raise) : (fatalEntry op e s).status = .fatal := rfl
@[simp] theorem fatalEntry_cause (op : Word) (e : Raise) : (fatalEntry op e s).cause = e.cause := rfl
@[simp] theorem fatalEntry_faultPc (op : Word) (e : Raise) : (fatalEntry op e s).faultPc = s.pc - 2 := rfl
@[simp] theorem fatalEntry_faultOp (op : Word) (e : Raise) : (fatalEntry op e s).faultOp = op := rfl
@[simp] theorem fatalEntry_faultInfo (op : Word) (e : Raise) : (fatalEntry op e s).faultInfo = e.info := rfl
@[simp] theorem fatalEntry_draws (op : Word) (e : Raise) : (fatalEntry op e s).draws = s.draws := rfl

/-! ### `haltEntry` -/

@[simp] theorem haltEntry_v : (haltEntry s).v = s.v := rfl
@[simp] theorem haltEntry_i : (haltEntry s).i = s.i := rfl
@[simp] theorem haltEntry_pc : (haltEntry s).pc = s.pc := rfl
@[simp] theorem haltEntry_sp : (haltEntry s).sp = s.sp := rfl
@[simp] theorem haltEntry_stack : (haltEntry s).stack = s.stack := rfl
@[simp] theorem haltEntry_dt : (haltEntry s).dt = s.dt := rfl
@[simp] theorem haltEntry_st : (haltEntry s).st = s.st := rfl
@[simp] theorem haltEntry_mem : (haltEntry s).mem = s.mem := rfl
@[simp] theorem haltEntry_disp : (haltEntry s).disp = s.disp := rfl
@[simp] theorem haltEntry_status : (haltEntry s).status = .halted := rfl
@[simp] theorem haltEntry_cause : (haltEntry s).cause = .fetchRange := rfl
@[simp] theorem haltEntry_faultPc : (haltEntry s).faultPc = s.pc := rfl
@[simp] theorem haltEntry_faultOp : (haltEntry s).faultOp = 0 := rfl
@[simp] theorem haltEntry_faultInfo : (haltEntry s).faultInfo = 0 := rfl
@[simp] theorem haltEntry_draws : (haltEntry s).draws = s.draws := rfl

/-! ### `advancePc` -/

@[simp] theorem advancePc_v : (advancePc s).v = s.v := rfl
@[simp] theorem advancePc_i : (advancePc s).i = s.i := rfl
@[simp] theorem advancePc_pc : (advancePc s).pc = s.pc + 2 := rfl
@[simp] theorem advancePc_sp : (advancePc s).sp = s.sp := rfl
@[simp] theorem advancePc_stack : (advancePc s).stack = s.stack := rfl
@[simp] theorem advancePc_dt : (advancePc s).dt = s.dt := rfl
@[simp] theorem advancePc_st : (advancePc s).st = s.st := rfl
@[simp] theorem advancePc_mem : (advancePc s).mem = s.mem := rfl
@[simp] theorem advancePc_disp : (advancePc s).disp = s.disp := rfl
@[simp] theorem advancePc_status : (advancePc s).status = s.status := rfl
@[simp] theorem advancePc_cause : (advancePc s).cause = s.cause := rfl
@[simp] theorem advancePc_faultPc : (advancePc s).faultPc = s.faultPc := rfl
@[simp] theorem advancePc_faultOp : (advancePc s).faultOp = s.faultOp := rfl
@[simp] theorem advancePc_faultInfo : (advancePc s).faultInfo = s.faultInfo := rfl
@[simp] theorem advancePc_draws : (advancePc s).draws = s.draws := rfl

/-! ### `tick` -/

@[simp] theorem tick_v : (tick s).v = s.v := rfl
@[simp] theorem tick_i : (tick s).i = s.i := rfl
@[simp] theorem tick_pc : (tick s).pc = s.pc := rfl
@[simp] theorem tick_sp : (tick s).sp = s.sp := rfl
@[simp] theorem tick_stack : (tick s).stack = s.stack := rfl
@[simp] theorem tick_dt : (tick s).dt = countDown s.dt := rfl
@[simp] theorem tick_st : (tick s).st = countDown s.st := rfl
@[simp] theorem tick_mem : (tick s).mem = s.mem := rfl
@[simp] theorem tick_disp : (tick s).disp = s.disp := rfl
@[simp] theorem tick_status : (tick s).status = s.status := rfl
@[simp] theorem tick_cause : (tick s).cause = s.cause := rfl
@[simp] theorem tick_faultPc : (tick s).faultPc = s.faultPc := rfl
@[simp] theorem tick_faultOp : (tick s).faultOp = s.faultOp := rfl
@[simp] theorem tick_faultInfo : (tick s).faultInfo = s.faultInfo := rfl
@[simp] theorem tick_draws : (tick s).draws = s.draws := rfl

/-! ### `placeWord` -/

@[simp] theorem placeWord_v (w : Word) : (placeWord s w).v = s.v := rfl
@[simp] theorem placeWord_i (w : Word) : (placeWord s w).i = s.i := rfl
@[simp] theorem placeWord_pc (w : Word) : (placeWord s w).pc = s.pc := rfl
@[simp] theorem placeWord_sp (w : Word) : (placeWord s w).sp = s.sp := rfl
@[simp] theorem placeWord_stack (w : Word) : (placeWord s w).stack = s.stack := rfl
@[simp] theorem placeWord_dt (w : Word) : (placeWord s w).dt = s.dt := rfl
@[simp] theorem placeWord_st (w : Word) : (placeWord s w).st = s.st := rfl
@[simp] theorem placeWord_disp (w : Word) : (placeWord s w).disp = s.disp := rfl
@[simp] theorem placeWord_status (w : Word) : (placeWord s w).status = s.status := rfl
@[simp] theorem placeWord_cause (w : Word) : (placeWord s w).cause = s.cause := rfl
@[simp] theorem placeWord_faultPc (w : Word) : (placeWord s w).faultPc = s.faultPc := rfl
@[simp] theorem placeWord_faultOp (w : Word) : (placeWord s w).faultOp = s.faultOp := rfl
@[simp] theorem placeWord_faultInfo (w : Word) : (placeWord s w).faultInfo = s.faultInfo := rfl
@[simp] theorem placeWord_draws (w : Word) : (placeWord s w).draws = s.draws := rfl

/-! ### `skipIf` and `keyWait`, by their cases -/

@[simp] theorem State.skipIf_v (c : Bool) : (s.skipIf c).v = s.v := by cases c <;> rfl
@[simp] theorem State.skipIf_i (c : Bool) : (s.skipIf c).i = s.i := by cases c <;> rfl
@[simp] theorem State.skipIf_pc (c : Bool) : (s.skipIf c).pc = if c then s.pc + 2 else s.pc := by cases c <;> rfl
@[simp] theorem State.skipIf_sp (c : Bool) : (s.skipIf c).sp = s.sp := by cases c <;> rfl
@[simp] theorem State.skipIf_stack (c : Bool) : (s.skipIf c).stack = s.stack := by cases c <;> rfl
@[simp] theorem State.skipIf_dt (c : Bool) : (s.skipIf c).dt = s.dt := by cases c <;> rfl
@[simp] theorem State.skipIf_st (c : Bool) : (s.skipIf c).st = s.st := by cases c <;> rfl
@[simp] theorem State.skipIf_mem (c : Bool) : (s.skipIf c).mem = s.mem := by cases c <;> rfl
@[simp] theorem State.skipIf_disp (c : Bool) : (s.skipIf c).disp = s.disp := by cases c <;> rfl
@[simp] theorem State.skipIf_status (c : Bool) : (s.skipIf c).status = s.status := by cases c <;> rfl
@[simp] theorem State.skipIf_cause (c : Bool) : (s.skipIf c).cause = s.cause := by cases c <;> rfl
@[simp] theorem State.skipIf_faultPc (c : Bool) : (s.skipIf c).faultPc = s.faultPc := by cases c <;> rfl
@[simp] theorem State.skipIf_faultOp (c : Bool) : (s.skipIf c).faultOp = s.faultOp := by cases c <;> rfl
@[simp] theorem State.skipIf_faultInfo (c : Bool) : (s.skipIf c).faultInfo = s.faultInfo := by cases c <;> rfl
@[simp] theorem State.skipIf_draws (c : Bool) : (s.skipIf c).draws = s.draws := by cases c <;> rfl
@[simp] theorem State.keyWait_i (x : Reg) (held : List Key) (pick : Nat) : (s.keyWait x held pick).i = s.i := by
  unfold State.keyWait; split <;> rfl
@[simp] theorem State.keyWait_sp (x : Reg) (held : List Key) (pick : Nat) : (s.keyWait x held pick).sp = s.sp := by
  unfold State.keyWait; split <;> rfl
@[simp] theorem State.keyWait_stack (x : Reg) (held : List Key) (pick : Nat) : (s.keyWait x held pick).stack = s.stack := by
  unfold State.keyWait; split <;> rfl
@[simp] theorem State.keyWait_dt (x : Reg) (held : List Key) (pick : Nat) : (s.keyWait x held pick).dt = s.dt := by
  unfold State.keyWait; split <;> rfl
@[simp] theorem State.keyWait_st (x : Reg) (held : List Key) (pick : Nat) : (s.keyWait x held pick).st = s.st := by
  unfold State.keyWait; split <;> rfl
@[simp] theorem State.keyWait_mem (x : Reg) (held : List Key) (pick : Nat) : (s.keyWait x held pick).mem = s.mem := by
  unfold State.keyWait; split <;> rfl
@[simp] theorem State.keyWait_disp (x : Reg) (held : List Key) (pick : Nat) : (s.keyWait x held pick).disp = s.disp := by
  unfold State.keyWait; split <;> rfl
@[simp] theorem State.keyWait_status (x : Reg) (held : List Key) (pick : Nat) : (s.keyWait x held pick).status = s.status := by
  unfold State.keyWait; split <;> rfl
@[simp] theorem State.keyWait_cause (x : Reg) (held : List Key) (pick : Nat) : (s.keyWait x held pick).cause = s.cause := by
  unfold State.keyWait; split <;> rfl
@[simp] theorem State.keyWait_faultPc (x : Reg) (held : List Key) (pick : Nat) : (s.keyWait x held pick).faultPc = s.faultPc := by
  unfold State.keyWait; split <;> rfl
@[simp] theorem State.keyWait_faultOp (x : Reg) (held : List Key) (pick : Nat) : (s.keyWait x held pick).faultOp = s.faultOp := by
  unfold State.keyWait; split <;> rfl
@[simp] theorem State.keyWait_faultInfo (x : Reg) (held : List Key) (pick : Nat) : (s.keyWait x held pick).faultInfo = s.faultInfo := by
  unfold State.keyWait; split <;> rfl
@[simp] theorem State.keyWait_draws (x : Reg) (held : List Key) (pick : Nat) : (s.keyWait x held pick).draws = s.draws := by
  unfold State.keyWait; split <;> rfl

/-! ### Register writes -/

@[simp] theorem State.readV_writeV_self (r : Reg) (b : Byte) : (s.writeV r b).readV r = b := by
  simp [State.readV, State.writeV]

theorem State.readV_writeV_of_ne {r q : Reg} (b : Byte) (h : q ≠ r) : (s.writeV r b).readV q = s.readV q := by
  have hne : r.toNat ≠ q.toNat := fun e => h (BitVec.eq_of_toNat_eq e.symm)
  simp [State.readV, State.writeV, hne]

/-- What a register reads after a write: the written value where it is the register written. -/
theorem State.readV_writeV (r q : Reg) (b : Byte) : (s.writeV r b).readV q = if q = r then b else s.readV q := by
  by_cases h : q = r
  · subst h; simp
  · simp [h, s.readV_writeV_of_ne b h]

/-- A write to V changes nothing else. -/
theorem State.writeV_frame (r : Reg) (b : Byte) : { s.writeV r b with v := s.v } = s := rfl

theorem State.writeFlag_eq (c : Bool) : s.writeFlag c = s.writeV flagReg (flagByte c) := rfl

/-- Reading a register looks at V alone. -/
theorem State.readV_congr {s t : State} (h : s.v = t.v) (r : Reg) : s.readV r = t.readV r := by
  simp [State.readV, h]

@[simp] theorem State.readV_drawn (r : Reg) : s.drawn.readV r = s.readV r := rfl
@[simp] theorem State.readV_skipIf (c : Bool) (r : Reg) : (s.skipIf c).readV r = s.readV r := by cases c <;> rfl
@[simp] theorem State.readV_advancePc (r : Reg) : (advancePc s).readV r = s.readV r := rfl
@[simp] theorem State.byte_advancePc (a : Nat) : (advancePc s).byte a = s.byte a := rfl
@[simp] theorem State.byte_writeV (r : Reg) (b : Byte) (a : Nat) : (s.writeV r b).byte a = s.byte a := rfl
@[simp] theorem State.byte_fatalEntry (op : Word) (e : Raise) (a : Nat) : (fatalEntry op e s).byte a = s.byte a := rfl

end Sys2Proof.Machine
end

