-- ==== Sys2Proof/Laws/Ops.lean ====
section
/-! SUPPORT. One lemma for each shared operation that says once what it can do. -/

namespace Sys2Proof.Machine

/-! ### The range check and the accesses behind it (20_memory.md R66) -/

theorem checkRange_ok {lo : Word} {count : Nat} (h : lo.toNat + count ≤ 0x1000) : checkRange lo count = .ok () := by
  have : ¬ (0 < count ∧ 0xFFF < lo.toNat + count - 1) := by omega
  simp [checkRange, this]

theorem checkRange_zero (lo : Word) : checkRange lo 0 = .ok () := by simp [checkRange]

theorem checkRange_error {lo : Word} {count : Nat} (hc : 0 < count) (h : 0x1000 < lo.toNat + count) :
    checkRange lo count = .error ⟨.memRange, BitVec.ofNat 16 (max lo.toNat 0x1000)⟩ := by
  have : 0 < count ∧ 0xFFF < lo.toNat + count - 1 := by omega
  simp [checkRange, this]

/-- The range check passes exactly where there is nothing to access or all of it is inside memory. -/
theorem checkRange_cases (lo : Word) (count : Nat) :
    ((count = 0 ∨ lo.toNat + count ≤ 0x1000) ∧ checkRange lo count = .ok ()) ∨
    (0 < count ∧ 0x1000 < lo.toNat + count ∧
      checkRange lo count = .error ⟨.memRange, BitVec.ofNat 16 (max lo.toNat 0x1000)⟩) := by
  rcases Nat.eq_zero_or_pos count with rfl | hc
  · exact .inl ⟨.inl rfl, checkRange_zero lo⟩
  · rcases Nat.lt_or_ge 0x1000 (lo.toNat + count) with h | h
    · exact .inr ⟨hc, h, checkRange_error hc h⟩
    · exact .inl ⟨.inr h, checkRange_ok h⟩

theorem memRead_ok {a : Nat} (s : State) (h : a < 0x1000) : memRead a s = .ok (s.byte a) := by
  have : ¬ 0xFFF < a := by omega
  simp [memRead, this]

theorem memWrite_ok {a : Nat} (b : Byte) (s : State) (h : a < 0x1000) :
    memWrite a b s = .ok { s with mem := Memory.write s.mem a b } := by
  have : ¬ 0xFFF < a := by omega
  simp [memWrite, this]

/-- Reading inside memory answers the bytes in order. -/
theorem readBytes_ok {a count : Nat} (s : State) (h : count = 0 ∨ a + count ≤ 0x1000) :
    readBytes a count s = .ok ((List.range count).map (fun k => s.byte (a + k))) := by
  induction count generalizing a with
  | zero => rfl
  | succ n ih =>
    have hrest : readBytes (a + 1) n s = .ok ((List.range n).map (fun k => s.byte (a + 1 + k))) := ih (by omega)
    have hmap : (List.range n).map (fun k => s.byte (a + 1 + k)) = (List.range n).map (fun k => s.byte (a + (k + 1))) :=
      List.map_congr_left fun k _ => by rw [show a + 1 + k = a + (k + 1) by omega]
    simp [readBytes, memRead_ok s (show a < 0x1000 by omega), hrest, hmap, List.range_succ_eq_map, Function.comp_def]

/-- Writing inside memory places the bytes in order and changes nothing else. -/
theorem writeBytes_ok {a : Nat} (bs : List Byte) (s : State) (h : bs = [] ∨ a + bs.length ≤ 0x1000) :
    writeBytes a bs s = .ok { s with mem := Memory.place s.mem a bs } := by
  induction bs generalizing a s with
  | nil => rfl
  | cons b bs ih =>
    simp only [List.length_cons, reduceCtorEq, false_or] at h
    rw [writeBytes, memWrite_ok b s (by omega)]
    exact ih { s with mem := Memory.write s.mem a b } (.inr (by omega))

theorem loadRange_ok {lo : Word} {count : Nat} (s : State) (h : count = 0 ∨ lo.toNat + count ≤ 0x1000) :
    loadRange lo count s = .ok ((List.range count).map (fun k => s.byte (lo.toNat + k))) := by
  have hc : checkRange lo count = .ok () := by
    rcases h with rfl | h
    · exact checkRange_zero lo
    · exact checkRange_ok h
  rw [loadRange, hc]
  exact readBytes_ok s h

theorem loadRange_error {lo : Word} {count : Nat} (s : State) (hc : 0 < count) (h : 0x1000 < lo.toNat + count) :
    loadRange lo count s = .error ⟨.memRange, BitVec.ofNat 16 (max lo.toNat 0x1000)⟩ := by
  rw [loadRange, checkRange_error hc h]

theorem storeRange_ok {lo : Word} (bs : List Byte) (s : State) (h : lo.toNat + bs.length ≤ 0x1000) :
    storeRange lo bs s = .ok { s with mem := Memory.place s.mem lo.toNat bs } := by
  rw [storeRange, checkRange_ok h]
  exact writeBytes_ok bs s (.inr h)

theorem storeRange_error {lo : Word} (bs : List Byte) (s : State) (hc : 0 < bs.length)
    (h : 0x1000 < lo.toNat + bs.length) :
    storeRange lo bs s = .error ⟨.memRange, BitVec.ofNat 16 (max lo.toNat 0x1000)⟩ := by
  rw [storeRange, checkRange_error hc h]

/-- The lowest address out of range is at least 0x1000 (20_memory.md R66). -/
theorem outOfRange_toNat (lo : Word) : (BitVec.ofNat 16 (max lo.toNat 0x1000)).toNat = max lo.toNat 0x1000 := by
  have := lo.isLt
  simp only [BitVec.toNat_ofNat]
  omega

/-! ### Runs of registers -/

@[simp] theorem State.readVs_length (s : State) (x : Reg) : (s.readVs x).length = x.toNat + 1 := by simp [State.readVs]

theorem State.readVs_getD (s : State) (x : Reg) {k : Nat} (h : k ≤ x.toNat) :
    (s.readVs x).getD k 0 = s.readV (BitVec.ofNat 4 k) := by
  have : k < x.toNat + 1 := by omega
  simp [State.readVs, this]

/-- Writing a run of registers changes V alone. -/
theorem State.writeVs_frame (s : State) (r : Nat) (bs : List Byte) : { s.writeVs r bs with v := s.v } = s := by
  induction bs generalizing s r with
  | nil => rfl
  | cons b bs ih =>
    have h := ih (s.writeV (BitVec.ofNat 4 r) b) (r + 1)
    have : { (s.writeV (BitVec.ofNat 4 r) b).writeVs (r + 1) bs with v := s.v } =
        { ({ (s.writeV (BitVec.ofNat 4 r) b).writeVs (r + 1) bs with v := (s.writeV (BitVec.ofNat 4 r) b).v } : State) with
          v := s.v } := rfl
    rw [State.writeVs, this, h]
    rfl

/-- What a register reads after a run was written: the run's byte inside it, else as before. -/
theorem State.readV_writeVs (s : State) (r : Nat) (bs : List Byte) (q : Reg) (h : r + bs.length ≤ 16) :
    (s.writeVs r bs).readV q = if r ≤ q.toNat ∧ q.toNat < r + bs.length then bs.getD (q.toNat - r) 0 else s.readV q := by
  induction bs generalizing s r with
  | nil => simp [State.writeVs]
  | cons b bs ih =>
    simp only [List.length_cons] at h
    rw [State.writeVs, ih _ _ (by omega), State.readV_writeV]
    have hr : (BitVec.ofNat 4 r).toNat = r := by simp; omega
    by_cases hq : q = BitVec.ofNat 4 r
    · have hqr : q.toNat = r := by rw [hq, hr]
      have h1 : ¬ (r + 1 ≤ q.toNat ∧ q.toNat < r + 1 + bs.length) := by omega
      have h2 : r ≤ q.toNat ∧ q.toNat < r + (bs.length + 1) := by omega
      rw [if_neg h1, if_pos hq, List.length_cons, if_pos h2, hqr]
      simp
    · have hqr : q.toNat ≠ r := fun e => hq (BitVec.eq_of_toNat_eq (by rw [hr, e]))
      by_cases h1 : r + 1 ≤ q.toNat ∧ q.toNat < r + 1 + bs.length
      · have h2 : r ≤ q.toNat ∧ q.toNat < r + (bs.length + 1) := by omega
        obtain ⟨k, hk⟩ : ∃ k, q.toNat - r = k + 1 := ⟨q.toNat - r - 1, by omega⟩
        rw [if_pos h1, List.length_cons, if_pos h2, hk, show q.toNat - (r + 1) = k by omega]
        rfl
      · have h2 : ¬ (r ≤ q.toNat ∧ q.toNat < r + (bs.length + 1)) := by omega
        rw [if_neg h1, if_neg hq, List.length_cons, if_neg h2]

/-! ### The stack (10_state.md R27, R28) -/

theorem State.push_ok (s : State) (a : Word) (h : s.sp.toNat < 16) :
    s.push a = some { s with stack := s.stack.set s.sp.toNat a h, sp := s.sp + 1 } := by
  simp [State.push, h]

theorem State.pop_ok (s : State) (h0 : s.sp ≠ 0#8) (h : s.sp.toNat ≤ 16) :
    ∃ hk : (s.sp - 1).toNat < 16, s.pop = some (s.stack[(s.sp - 1).toNat], { s with sp := s.sp - 1 }) := by
  have h1 : s.sp.toNat ≠ 0 := fun e => h0 (BitVec.eq_of_toNat_eq e)
  have hk : (s.sp - 1).toNat < 16 := by
    rw [BitVec.toNat_sub]
    simp
    omega
  exact ⟨hk, by rw [State.pop, State.stackEntry, Vector.getElem?_eq_getElem hk]⟩

/-! ### Keys (45_keys_timers.md) -/

theorem keyOperand_ok {b : Byte} (h : b.toNat ≤ 0xF) : keyOperand b = .ok (b.setWidth 4) := by
  have : ¬ 0xF < b.toNat := by omega
  simp [keyOperand, this]

theorem keyOperand_error {b : Byte} (h : 0xF < b.toNat) : keyOperand b = .error ⟨.keyRange, wideOperand b⟩ := by
  simp [keyOperand, h]

theorem mem_allKeys (k : Key) : k ∈ allKeys := by decide +revert

/-- The held keys are the keys the answers say are held. -/
theorem mem_heldKeys {held : Key → Bool} {k : Key} : k ∈ heldKeys held ↔ held k = true := by
  simp [heldKeys, mem_allKeys]

/-- A choice among held keys is one of them; there is none when none is held. -/
theorem chooseKey_cases (held : List Key) (pick : Nat) :
    (held = [] ∧ chooseKey held pick = none) ∨ ∃ k ∈ held, chooseKey held pick = some k := by
  rcases held with _ | ⟨k, ks⟩
  · exact .inl ⟨rfl, by simp [chooseKey]⟩
  · have hlt : pick % (k :: ks).length < (k :: ks).length := Nat.mod_lt _ (by simp)
    exact .inr ⟨(k :: ks)[pick % (k :: ks).length], List.getElem_mem hlt, List.getElem?_eq_getElem hlt⟩

/-- Every held key is taken by some choice (D14). -/
theorem chooseKey_surjective {held : List Key} {k : Key} (h : k ∈ held) : ∃ pick, chooseKey held pick = some k := by
  obtain ⟨n, hn, rfl⟩ := List.getElem_of_mem h
  exact ⟨n, by simp [chooseKey, Nat.mod_eq_of_lt hn, hn]⟩

/-! ### Timers (60_exceptions.md R215) -/

/-- Counting down is subtraction that stops at 0. -/
theorem countDown_toNat (t : Byte) : (countDown t).toNat = t.toNat - 1 := by
  by_cases h : t = 0
  · simp [countDown, h]
  · have h1 : t.toNat ≠ 0 := fun e => h (BitVec.eq_of_toNat_eq (by simpa using e))
    have := t.isLt
    rw [countDown, if_neg h, BitVec.toNat_sub]
    simp
    omega

/-! ### Ending a rule -/

theorem conclude_ok (i : Instr) (s t : State) : conclude i s (.ok t) = .next t := rfl
theorem conclude_error (i : Instr) (s : State) (e : Raise) :
    conclude i s (.error e) = .next (fatalEntry (encode i) e s) := rfl

/-- A rule that ends answers a next state: its effect, or the fatal entry on the state it found. -/
theorem conclude_cases {i : Instr} {s t : State} {r : Except Raise State} (h : conclude i s r = .next t) :
    r = .ok t ∨ ∃ e, r = .error e ∧ t = fatalEntry (encode i) e s := by
  cases r with
  | ok u => exact .inl (by simpa [conclude] using h)
  | error e => exact .inr ⟨e, rfl, by simpa [conclude] using h.symm⟩

end Sys2Proof.Machine
end

