-- ==== Sys2Proof/Laws/Display.lean ====
section
/-! SUPPORT. The laws of the display: flipping one pixel, one row of a sprite, a whole sprite. -/

namespace Sys2Proof.Machine

@[simp] theorem Display.pixel_blank (x y : Nat) : Display.blank.pixel x y = false := by
  simp [Display.pixel, Display.blank]

/-- Pixels are named modulo the display's size. -/
theorem Display.pixel_mod (d : Display) (x y : Nat) : d.pixel (x % 64) (y % 32) = d.pixel x y := by
  simp [Display.pixel]

/-- Flipping a pixel flips that one alone. -/
theorem Display.pixel_flip (d : Display) (x y px py : Nat) :
    (d.flip x y).pixel px py = (d.pixel px py ^^ decide (x % 64 = px % 64 ∧ y % 32 = py % 32)) := by
  by_cases hx : x % 64 = px % 64
  · by_cases hy : y % 32 = py % 32
    · simp [Display.flip, Display.pixel, hx, hy]
    · simp [Display.flip, Display.pixel, hx, hy, Vector.getElem_set_ne]
  · simp [Display.flip, Display.pixel, hx, Vector.getElem_set_ne]

/-- Two displays with the same pixels are the same display. -/
theorem Display.ext_pixel {d e : Display} (h : ∀ x y : Nat, x < 64 → y < 32 → d.pixel x y = e.pixel x y) : d = e := by
  apply Vector.ext
  intro x hx
  apply Vector.ext
  intro y hy
  have := h x y hx hy
  simpa [Display.pixel, Nat.mod_eq_of_lt hx, Nat.mod_eq_of_lt hy] using this

/-- Whether some set bit of a row byte, among the columns `cols`, falls on a pixel. -/
def rowHits (ox y : Nat) (b : Byte) (cols : List Nat) (px py : Nat) : Bool :=
  cols.any (fun col => spriteBit b col && decide ((ox + col) % 64 = px % 64 ∧ y % 32 = py % 32))

/-- Drawing the columns `cols` of a row, no two of them on one pixel: each covered pixel flips once, and a hit is
recorded where a covered pixel was lit. -/
theorem Canvas.foldl_flip (ox y : Nat) (b : Byte) (cols : List Nat) (c : Canvas)
    (hd : cols.Pairwise (fun a b => (ox + a) % 64 ≠ (ox + b) % 64)) :
    let c' := cols.foldl (fun c col => if spriteBit b col then c.flip (ox + col) y else c) c
    (∀ px py, c'.disp.pixel px py = (c.disp.pixel px py ^^ rowHits ox y b cols px py)) ∧
    (c'.hit = (c.hit || cols.any (fun col => spriteBit b col && c.disp.pixel (ox + col) y))) := by
  induction cols generalizing c with
  | nil => simp [rowHits]
  | cons col cols ih =>
    obtain ⟨hcol, hcols⟩ := List.pairwise_cons.mp hd
    by_cases hb : spriteBit b col = true
    · obtain ⟨h1, h2⟩ := ih (c.flip (ox + col) y) hcols
      refine ⟨fun px py => ?_, ?_⟩
      · have hrest : ((ox + col) % 64 = px % 64 ∧ y % 32 = py % 32) → rowHits ox y b cols px py = false := by
          rintro ⟨hx, -⟩
          simp only [rowHits, List.any_eq_false, Bool.and_eq_true, decide_eq_true_eq, not_and]
          exact fun a ha _ e => absurd e (fun e => hcol a ha (hx.trans e.symm))
        have h1' := h1 px py
        simp only [List.foldl_cons, hb, if_true] at h1' ⊢
        rw [h1']
        show ((c.disp.flip (ox + col) y).pixel px py ^^ _) = _
        rw [Display.pixel_flip]
        by_cases hp : (ox + col) % 64 = px % 64 ∧ y % 32 = py % 32
        · have hfst : rowHits ox y b (col :: cols) px py = true := by simp [rowHits, hb, hp]
          rw [hrest hp, hfst]
          simp [hp]
        · have : rowHits ox y b (col :: cols) px py = rowHits ox y b cols px py := by simp [rowHits, hb, hp]
          rw [this]
          simp [hp]
      · simp only [List.foldl_cons, hb, if_true]
        rw [h2]
        have hany : cols.any (fun a => spriteBit b a && (c.flip (ox + col) y).disp.pixel (ox + a) y) =
            cols.any (fun a => spriteBit b a && c.disp.pixel (ox + a) y) := by
          rw [Bool.eq_iff_iff, List.any_eq_true, List.any_eq_true]
          refine exists_congr fun a => and_congr_right fun ha => ?_
          show (spriteBit b a && (c.disp.flip (ox + col) y).pixel (ox + a) y) = true ↔ _
          rw [Display.pixel_flip]
          simp [hcol a ha]
        rw [hany]
        simp [hb, Canvas.flip, Bool.or_assoc]
    · have hb' : spriteBit b col = false := by simpa using hb
      obtain ⟨h1, h2⟩ := ih c hcols
      refine ⟨fun px py => ?_, ?_⟩
      · have := h1 px py
        simpa [hb', rowHits] using this
      · simpa [hb'] using h2

/-- The eight columns of a row fall on eight different pixels, because 8 < 64 (44_display.md R171). -/
theorem columns_distinct (ox : Nat) : (List.range 8).Pairwise (fun a b => (ox + a) % 64 ≠ (ox + b) % 64) := by
  refine List.Pairwise.imp_of_mem ?_ List.pairwise_lt_range
  intro a b ha hb hab
  have h1 := List.mem_range.mp ha
  have h2 := List.mem_range.mp hb
  omega

theorem Canvas.drawRow_spec (c : Canvas) (ox y : Nat) (b : Byte) :
    (∀ px py, (c.drawRow ox y b).disp.pixel px py = (c.disp.pixel px py ^^ rowHits ox y b (List.range 8) px py)) ∧
    ((c.drawRow ox y b).hit = (c.hit || (List.range 8).any (fun col => spriteBit b col && c.disp.pixel (ox + col) y))) :=
  Canvas.foldl_flip ox y b (List.range 8) c (columns_distinct ox)

/-- Whether some set bit of a sprite's rows, the first at row `y`, falls on a pixel. -/
def rowsHit (ox y : Nat) : List Byte → Nat → Nat → Bool
  | [], _, _ => false
  | b :: bs, px, py => rowHits ox y b (List.range 8) px py || rowsHit ox (y + 1) bs px py

theorem rowHits_iff {ox y : Nat} {b : Byte} {px py : Nat} : rowHits ox y b (List.range 8) px py = true ↔
    ∃ col, col < 8 ∧ spriteBit b col = true ∧ (ox + col) % 64 = px % 64 ∧ y % 32 = py % 32 := by
  simp only [rowHits, List.any_eq_true, List.mem_range, Bool.and_eq_true, decide_eq_true_eq]

/-- A covered pixel, by its row and column in the sprite. -/
theorem rowsHit_iff {ox y : Nat} {bs : List Byte} {px py : Nat} : rowsHit ox y bs px py = true ↔
    ∃ row col, row < bs.length ∧ col < 8 ∧ spriteBit (bs.getD row 0) col = true ∧ (ox + col) % 64 = px % 64 ∧
      (y + row) % 32 = py % 32 := by
  induction bs generalizing y with
  | nil => simp [rowsHit]
  | cons b bs ih =>
    rw [rowsHit, Bool.or_eq_true, rowHits_iff, ih]
    constructor
    · rintro (⟨col, h1, h2, h3, h4⟩ | ⟨row, col, h1, h2, h3, h4, h5⟩)
      · exact ⟨0, col, by simp, h1, by simpa using h2, h3, by simpa using h4⟩
      · exact ⟨row + 1, col, by simpa using h1, h2, by simpa using h3, h4, by rw [← h5]; congr 1; omega⟩
    · rintro ⟨row, col, h1, h2, h3, h4, h5⟩
      rcases row with _ | row
      · exact .inl ⟨col, h2, by simpa using h3, h4, by simpa using h5⟩
      · exact .inr ⟨row, col, by simpa using h1, h2, by simpa using h3, h4, by rw [← h5]; congr 1; omega⟩

/-- Drawing a sprite of at most 32 rows: each covered pixel flips once, and a hit is recorded exactly where a covered
pixel was lit. -/
theorem Canvas.drawRows_spec (c : Canvas) (ox y : Nat) (bs : List Byte) (hlen : bs.length ≤ 32) :
    (∀ px py, (c.drawRows ox y bs).disp.pixel px py = (c.disp.pixel px py ^^ rowsHit ox y bs px py)) ∧
    ((c.drawRows ox y bs).hit = true ↔
      c.hit = true ∨ ∃ px py, rowsHit ox y bs px py = true ∧ c.disp.pixel px py = true) := by
  induction bs generalizing c y with
  | nil => simp [Canvas.drawRows, rowsHit]
  | cons b bs ih =>
    simp only [List.length_cons] at hlen
    obtain ⟨r1, r2⟩ := Canvas.drawRow_spec c ox y b
    obtain ⟨h1, h2⟩ := ih (c.drawRow ox y b) (y + 1) (by omega)
    have hdisj : ∀ px py, rowHits ox y b (List.range 8) px py = true → rowsHit ox (y + 1) bs px py = false := by
      intro px py h
      rw [Bool.eq_false_iff]
      intro h'
      obtain ⟨-, -, -, -, e⟩ := rowHits_iff.mp h
      obtain ⟨row, -, hrow, -, -, -, e'⟩ := rowsHit_iff.mp h'
      omega
    refine ⟨fun px py => ?_, ?_⟩
    · rw [Canvas.drawRows, h1, r1, rowsHit]
      cases hr : rowHits ox y b (List.range 8) px py
      · simp
      · simp [hdisj px py hr]
    · rw [Canvas.drawRows, h2, r2, Bool.or_eq_true, or_assoc]
      refine or_congr_right ?_
      simp only [List.any_eq_true, List.mem_range, Bool.and_eq_true, rowsHit, Bool.or_eq_true]
      constructor
      · rintro (⟨col, hc, hb, hp⟩ | ⟨px, py, h, hp⟩)
        · exact ⟨ox + col, y, .inl (rowHits_iff.mpr ⟨col, hc, hb, rfl, rfl⟩), hp⟩
        · rw [r1] at hp
          cases hr : rowHits ox y b (List.range 8) px py
          · exact ⟨px, py, .inr h, by simpa [hr] using hp⟩
          · rw [hdisj px py hr] at h
            cases h
      · rintro ⟨px, py, h | h, hp⟩
        · obtain ⟨col, hc, hb, ex, ey⟩ := rowHits_iff.mp h
          exact .inl ⟨col, hc, hb, by rw [← Display.pixel_mod, ex, ey, Display.pixel_mod]; exact hp⟩
        · refine .inr ⟨px, py, h, ?_⟩
          have : rowHits ox y b (List.range 8) px py = false := by
            cases hr : rowHits ox y b (List.range 8) px py
            · rfl
            · rw [hdisj px py hr] at h
              cases h
          rw [r1, this, hp]
          rfl

end Sys2Proof.Machine
end

