-- ==== Sys2Proof/Laws/Exec.lean ====
section
/-! SUPPORT. What the meanings that can end in more than one way answer: one inversion lemma each. Every other meaning is
`.next` of its effect by definition. -/

namespace Sys2Proof.Machine

theorem execRet_cases (s : State) :
    (s.sp = 0#8 ∧ execRet s = .next (fatalEntry (encode .ret) ⟨.stackUnderflow, 0⟩ s)) ∨
    (s.sp ≠ 0#8 ∧ ∃ a, s.stackEntry (s.sp - 1) = some a ∧ execRet s = .next { s with sp := s.sp - 1, pc := a }) ∨
    (16 < s.sp.toNat ∧ execRet s = .fault .stackPointerIllegal) := by
  by_cases h0 : s.sp = 0#8
  · exact .inl ⟨h0, by rw [execRet, if_pos h0]; rfl⟩
  · by_cases h : s.sp.toNat ≤ 16
    · obtain ⟨hk, hp⟩ := s.pop_ok h0 h
      exact .inr (.inl ⟨h0, _, Vector.getElem?_eq_getElem hk, by rw [execRet, if_neg h0, hp]; rfl⟩)
    · have hlt := s.sp.isLt
      have hk : ¬ (s.sp - 1).toNat < 16 := by
        rw [BitVec.toNat_sub]
        simp
        omega
      have hn : s.pop = none := by rw [State.pop, State.stackEntry, Vector.getElem?_eq_none (by omega)]
      exact .inr (.inr ⟨by omega, by rw [execRet, if_neg h0, hn]⟩)

theorem execCall_cases (nnn : Addr12) (s : State) :
    (s.sp = 16#8 ∧ execCall nnn s = .next (fatalEntry (encode (.call nnn)) ⟨.stackOverflow, 0⟩ s)) ∨
    (∃ h : s.sp.toNat < 16, execCall nnn s =
      .next { s with stack := s.stack.set s.sp.toNat s.pc h, sp := s.sp + 1, pc := addrOperand nnn }) ∨
    (16 < s.sp.toNat ∧ execCall nnn s = .fault .stackPointerIllegal) := by
  by_cases h16 : s.sp = 16#8
  · exact .inl ⟨h16, by rw [execCall, if_pos h16]; rfl⟩
  · have hne : s.sp.toNat ≠ 16 := fun e => h16 (BitVec.eq_of_toNat_eq e)
    by_cases h : s.sp.toNat < 16
    · exact .inr (.inl ⟨h, by rw [execCall, if_neg h16, s.push_ok s.pc h]; rfl⟩)
    · exact .inr (.inr ⟨by omega, by rw [execCall, if_neg h16, State.push, dif_neg h]⟩)

/-- The fatal entry of an access out of range: the lowest such address is recorded (20_memory.md R66). -/
def rangeFault (i : Instr) (s : State) : State :=
  fatalEntry (encode i) ⟨.memRange, BitVec.ofNat 16 (max s.i.toNat 0x1000)⟩ s

theorem execLdBcd_cases (x : Reg) (s : State) :
    (s.i.toNat + 3 ≤ 0x1000 ∧
      execLdBcd x s = .next { s with mem := Memory.place s.mem s.i.toNat (decimalDigits (s.readV x)) }) ∨
    (0x1000 < s.i.toNat + 3 ∧ execLdBcd x s = .next (rangeFault (.ldBcd x) s)) := by
  have hlen : (decimalDigits (s.readV x)).length = 3 := rfl
  rcases Nat.lt_or_ge 0x1000 (s.i.toNat + 3) with h | h
  · exact .inr ⟨h, by rw [execLdBcd, storeRange_error _ _ (by omega) (by omega)]; rfl⟩
  · exact .inl ⟨h, by rw [execLdBcd, storeRange_ok _ _ (by omega)]; rfl⟩

theorem execStoreRegs_cases (x : Reg) (s : State) :
    (s.i.toNat + (x.toNat + 1) ≤ 0x1000 ∧
      execStoreRegs x s = .next { s with mem := Memory.place s.mem s.i.toNat (s.readVs x) }) ∨
    (0x1000 < s.i.toNat + (x.toNat + 1) ∧ execStoreRegs x s = .next (rangeFault (.storeRegs x) s)) := by
  have hlen := s.readVs_length x
  rcases Nat.lt_or_ge 0x1000 (s.i.toNat + (x.toNat + 1)) with h | h
  · exact .inr ⟨h, by rw [execStoreRegs, storeRange_error _ _ (by omega) (by omega)]; rfl⟩
  · exact .inl ⟨h, by rw [execStoreRegs, storeRange_ok _ _ (by omega)]; rfl⟩

/-- The bytes an access of `count` bytes at I reads. -/
def bytesAtI (s : State) (count : Nat) : List Byte := (List.range count).map (fun k => s.byte (s.i.toNat + k))

@[simp] theorem bytesAtI_length (s : State) (count : Nat) : (bytesAtI s count).length = count := by simp [bytesAtI]

theorem execLoadRegs_cases (x : Reg) (s : State) :
    (s.i.toNat + (x.toNat + 1) ≤ 0x1000 ∧ execLoadRegs x s = .next (s.writeVs 0 (bytesAtI s (x.toNat + 1)))) ∨
    (0x1000 < s.i.toNat + (x.toNat + 1) ∧ execLoadRegs x s = .next (rangeFault (.loadRegs x) s)) := by
  rcases Nat.lt_or_ge 0x1000 (s.i.toNat + (x.toNat + 1)) with h | h
  · exact .inr ⟨h, by rw [execLoadRegs, loadRange_error _ (by omega) h]; rfl⟩
  · exact .inl ⟨h, by rw [execLoadRegs, loadRange_ok _ (.inr h)]; rfl⟩

theorem execDrw_cases (x y : Reg) (n : RowCount) (s : State) :
    ((n.toNat = 0 ∨ s.i.toNat + n.toNat ≤ 0x1000) ∧
      execDrw x y n s = .next (s.drawSprite (s.readV x) (s.readV y) (bytesAtI s n.toNat))) ∨
    (0 < n.toNat ∧ 0x1000 < s.i.toNat + n.toNat ∧ execDrw x y n s = .next (rangeFault (.drw x y n) s)) := by
  by_cases h : n.toNat = 0 ∨ s.i.toNat + n.toNat ≤ 0x1000
  · exact .inl ⟨h, by rw [execDrw, loadRange_ok _ h]; rfl⟩
  · have h0 : 0 < n.toNat := by omega
    have h1 : 0x1000 < s.i.toNat + n.toNat := by omega
    exact .inr ⟨h0, h1, by rw [execDrw, loadRange_error _ h0 h1]; rfl⟩

theorem execSkp_cases (x : Reg) (s : State) :
    ((s.readV x).toNat ≤ 0xF ∧ ∃ c, execSkp x s = .next (s.drawn.skipIf c)) ∨
    (0xF < (s.readV x).toNat ∧
      execSkp x s = .next (fatalEntry (encode (.skp x)) ⟨.keyRange, wideOperand (s.readV x)⟩ s)) := by
  rcases Nat.lt_or_ge 0xF (s.readV x).toNat with h | h
  · exact .inr ⟨h, by rw [execSkp, keyOperand_error h]; rfl⟩
  · exact .inl ⟨h, _, by rw [execSkp, keyOperand_ok h]; rfl⟩

theorem execSknp_cases (x : Reg) (s : State) :
    ((s.readV x).toNat ≤ 0xF ∧ ∃ c, execSknp x s = .next (s.drawn.skipIf c)) ∨
    (0xF < (s.readV x).toNat ∧
      execSknp x s = .next (fatalEntry (encode (.sknp x)) ⟨.keyRange, wideOperand (s.readV x)⟩ s)) := by
  rcases Nat.lt_or_ge 0xF (s.readV x).toNat with h | h
  · exact .inr ⟨h, by rw [execSknp, keyOperand_error h]; rfl⟩
  · exact .inl ⟨h, _, by rw [execSknp, keyOperand_ok h]; rfl⟩

/-- A STEP of a running core inside memory runs the decoded instruction, or skips the unknown word. -/
theorem step_running {s : State} (h : s.status = .running) (hg : guardFires s = false) :
    (∃ i, decode (fetchWord s) = .ok i ∧ step s = exec i (advancePc s)) ∨
    (∃ e, decode (fetchWord s) = .error e ∧ step s = .next (advancePc s)) := by
  cases hd : decode (fetchWord s) with
  | ok i => exact .inl ⟨i, rfl, by simp only [step, h, hg, hd]; rfl⟩
  | error e => exact .inr ⟨e, rfl, by simp only [step, h, hg, hd]; rfl⟩

theorem step_halting {s : State} (h : s.status = .running) (hg : guardFires s = true) : step s = .next (haltEntry s) := by
  simp [step, h, hg]

theorem step_of_not_running {s : State} (h : s.status ≠ .running) : step s = .next s := by
  unfold step
  split
  · rfl
  · rfl
  · contradiction

/-- The four ways a STEP goes (60_exceptions.md R210). -/
theorem step_cases (s : State) :
    (s.status ≠ .running ∧ step s = .next s) ∨
    (s.status = .running ∧ guardFires s = true ∧ step s = .next (haltEntry s)) ∨
    (s.status = .running ∧ guardFires s = false ∧ ∃ e, decode (fetchWord s) = .error e ∧ step s = .next (advancePc s)) ∨
    (s.status = .running ∧ guardFires s = false ∧ ∃ i, decode (fetchWord s) = .ok i ∧ step s = exec i (advancePc s)) := by
  by_cases h : s.status = .running
  · cases hg : guardFires s with
    | true => exact .inr (.inl ⟨h, rfl, step_halting h hg⟩)
    | false =>
      rcases step_running h hg with hi | he
      · exact .inr (.inr (.inr ⟨h, rfl, hi⟩))
      · exact .inr (.inr (.inl ⟨h, rfl, he⟩))
  · exact .inl ⟨h, step_of_not_running h⟩

@[simp] theorem guardFires_iff (s : State) : guardFires s = true ↔ 0xFFE < s.pc.toNat := by simp [guardFires]

theorem guardFires_eq_false (s : State) : guardFires s = false ↔ s.pc.toNat ≤ 0xFFE := by simp [guardFires]

end Sys2Proof.Machine
end

