-- ==== Sys2Proof/Laws/PerInstr.lean ====
section
/-! SUPPORT. Statements for all instructions, one lemma per constructor: the family `RowCovers` says that the encoder's
word of an instruction belongs to the instruction's own row of the opcode table. -/

namespace Sys2Proof.Laws.RowCovers

/-- The encoded word matches the instruction's row of spec/opcode_table.json. -/
def Statement (i : Instr) : Prop := i.row.covers (encode i) = true

/-- A mask that keeps only the family nibble keeps it. -/
theorem covers_family (f : BitVec 4) (w : Word) (h : familyField w = f) :
    OpcodeRow.covers ⟨0xF000, packNNN f 0⟩ w = true := by
  subst h
  simp only [OpcodeRow.covers, beq_iff_eq, familyField, packNNN]
  ext k hk
  interval_cases k <;> simp <;> grind

/-- A mask that keeps the family and the low nibble keeps them. -/
theorem covers_family_nibble (f n : BitVec 4) (w : Word) (h : familyField w = f) (h' : nField w = n) :
    OpcodeRow.covers ⟨0xF00F, packXYN f 0 0 n⟩ w = true := by
  subst h; subst h'
  simp only [OpcodeRow.covers, beq_iff_eq, familyField, nField, packXYN]
  ext k hk
  interval_cases k <;> simp <;> grind

/-- A mask that keeps the family and the low byte keeps them. -/
theorem covers_family_byte (f : BitVec 4) (nn : Byte) (w : Word) (h : familyField w = f) (h' : nnField w = nn) :
    OpcodeRow.covers ⟨0xF0FF, packXNN f 0 nn⟩ w = true := by
  subst h; subst h'
  simp only [OpcodeRow.covers, beq_iff_eq, familyField, nnField, packXNN]
  ext k hk
  interval_cases k <;> simp <;> grind

theorem cls : Statement .cls := rfl
theorem ret : Statement .ret := rfl
theorem jp (nnn : Addr12) : Statement (.jp nnn) := covers_family 0x1 _ (familyField_packNNN ..)
theorem call (nnn : Addr12) : Statement (.call nnn) := covers_family 0x2 _ (familyField_packNNN ..)
theorem seImm (x : Reg) (nn : Byte) : Statement (.seImm x nn) := covers_family 0x3 _ (familyField_packXNN ..)
theorem sneImm (x : Reg) (nn : Byte) : Statement (.sneImm x nn) := covers_family 0x4 _ (familyField_packXNN ..)
theorem seReg (x y : Reg) : Statement (.seReg x y) := covers_family_nibble 0x5 0x0 _ (familyField_packXYN ..) (nField_packXYN ..)
theorem ldImm (x : Reg) (nn : Byte) : Statement (.ldImm x nn) := covers_family 0x6 _ (familyField_packXNN ..)
theorem addImm (x : Reg) (nn : Byte) : Statement (.addImm x nn) := covers_family 0x7 _ (familyField_packXNN ..)
theorem ldReg (x y : Reg) : Statement (.ldReg x y) := covers_family_nibble 0x8 0x0 _ (familyField_packXYN ..) (nField_packXYN ..)
theorem orReg (x y : Reg) : Statement (.orReg x y) := covers_family_nibble 0x8 0x1 _ (familyField_packXYN ..) (nField_packXYN ..)
theorem andReg (x y : Reg) : Statement (.andReg x y) := covers_family_nibble 0x8 0x2 _ (familyField_packXYN ..) (nField_packXYN ..)
theorem xorReg (x y : Reg) : Statement (.xorReg x y) := covers_family_nibble 0x8 0x3 _ (familyField_packXYN ..) (nField_packXYN ..)
theorem addReg (x y : Reg) : Statement (.addReg x y) := covers_family_nibble 0x8 0x4 _ (familyField_packXYN ..) (nField_packXYN ..)
theorem subReg (x y : Reg) : Statement (.subReg x y) := covers_family_nibble 0x8 0x5 _ (familyField_packXYN ..) (nField_packXYN ..)
theorem shr (x y : Reg) : Statement (.shr x y) := covers_family_nibble 0x8 0x6 _ (familyField_packXYN ..) (nField_packXYN ..)
theorem subnReg (x y : Reg) : Statement (.subnReg x y) := covers_family_nibble 0x8 0x7 _ (familyField_packXYN ..) (nField_packXYN ..)
theorem shl (x y : Reg) : Statement (.shl x y) := covers_family_nibble 0x8 0xE _ (familyField_packXYN ..) (nField_packXYN ..)
theorem sneReg (x y : Reg) : Statement (.sneReg x y) := covers_family_nibble 0x9 0x0 _ (familyField_packXYN ..) (nField_packXYN ..)
theorem ldI (nnn : Addr12) : Statement (.ldI nnn) := covers_family 0xA _ (familyField_packNNN ..)
theorem jpV0 (nnn : Addr12) : Statement (.jpV0 nnn) := covers_family 0xB _ (familyField_packNNN ..)
theorem rnd (x : Reg) (nn : Byte) : Statement (.rnd x nn) := covers_family 0xC _ (familyField_packXNN ..)
theorem drw (x y : Reg) (n : RowCount) : Statement (.drw x y n) := covers_family 0xD _ (familyField_packXYN ..)
theorem skp (x : Reg) : Statement (.skp x) := covers_family_byte 0xE 0x9E _ (familyField_packXNN ..) (nnField_packXNN ..)
theorem sknp (x : Reg) : Statement (.sknp x) := covers_family_byte 0xE 0xA1 _ (familyField_packXNN ..) (nnField_packXNN ..)
theorem ldVxDt (x : Reg) : Statement (.ldVxDt x) := covers_family_byte 0xF 0x07 _ (familyField_packXNN ..) (nnField_packXNN ..)
theorem ldKey (x : Reg) : Statement (.ldKey x) := covers_family_byte 0xF 0x0A _ (familyField_packXNN ..) (nnField_packXNN ..)
theorem ldDt (x : Reg) : Statement (.ldDt x) := covers_family_byte 0xF 0x15 _ (familyField_packXNN ..) (nnField_packXNN ..)
theorem ldSt (x : Reg) : Statement (.ldSt x) := covers_family_byte 0xF 0x18 _ (familyField_packXNN ..) (nnField_packXNN ..)
theorem addI (x : Reg) : Statement (.addI x) := covers_family_byte 0xF 0x1E _ (familyField_packXNN ..) (nnField_packXNN ..)
theorem ldFont (x : Reg) : Statement (.ldFont x) := covers_family_byte 0xF 0x29 _ (familyField_packXNN ..) (nnField_packXNN ..)
theorem ldBcd (x : Reg) : Statement (.ldBcd x) := covers_family_byte 0xF 0x33 _ (familyField_packXNN ..) (nnField_packXNN ..)
theorem storeRegs (x : Reg) : Statement (.storeRegs x) := covers_family_byte 0xF 0x55 _ (familyField_packXNN ..) (nnField_packXNN ..)
theorem loadRegs (x : Reg) : Statement (.loadRegs x) := covers_family_byte 0xF 0x65 _ (familyField_packXNN ..) (nnField_packXNN ..)

end Sys2Proof.Laws.RowCovers
end

