-- ==== Sys2Proof/Tests/Slice0.lean ====
section
/-! SUPPORT. The model's own tests: ill-formed words, every decoding, one STEP for each instruction with the vectors of
spec/95_test_vectors.md (the id stands in the docstring), and a state that meets the hypotheses of every obligation. A
test on fixed values is no statement about the machine. -/

open Sys2Proof Sys2Proof.Machine

namespace Sys2Proof.Tests

/-! ### Helpers -/

/-- The reset state with the registers `regs`. -/
def withV (regs : List (Reg × Byte)) : State := regs.foldl (fun s p => s.writeV p.1 p.2) State.reset

/-- Bytes placed in memory from an address on. -/
def poke (s : State) (a : Nat) (bytes : List Byte) : State := { s with mem := Memory.place s.mem a bytes }

/-- One STEP with the word `w` at pc, seen through `f`. -/
def seen (s : State) (w : Nat) (f : State → α) : Option α :=
  match step (s.withFetchWord 16 w) with
  | .next t => some (f t)
  | .fault _ => none
  | .refused _ => none

/-- What a fatal STEP records, and where pc then is. -/
def record (t : State) : StepResult × Word := (stepResult t, t.pc)

/-- The next state a result holds, if it holds one. -/
def nextOf : Result → Option State
  | .next t => some t
  | .fault _ => none
  | .refused _ => none

/-- The lit pixels of a part of the display. -/
def lit (xs ys : List Nat) (d : Display) : List (Nat × Nat) :=
  xs.flatMap (fun x => (ys.filter (fun y => d.pixel x y)).map (fun y => (x, y)))

/-- A register file with `base + k` in V[k]. -/
def ramp (base : Byte) : List (Reg × Byte) :=
  (List.range 16).map (fun k => (BitVec.ofNat 4 k, base + BitVec.ofNat 8 k))

/-! ### Well-formed words: ill-formed ones are refused, one for each check -/

theorem test_wellformed_family0 : wellFormedWord 0x0000 = false ∧ wellFormedWord 0x0123 = false ∧
    wellFormedWord 0x00E1 = false ∧ wellFormedWord 0x01E0 = false ∧ wellFormedWord 0x00E0 = true := by decide
theorem test_wellformed_family5 : wellFormedWord 0x5121 = false ∧ wellFormedWord 0x5120 = true := by decide
theorem test_wellformed_family8 : wellFormedWord 0x8128 = false ∧ wellFormedWord 0x812D = false ∧
    wellFormedWord 0x812F = false ∧ wellFormedWord 0x812E = true := by decide
theorem test_wellformed_family9 : wellFormedWord 0x912F = false ∧ wellFormedWord 0x9120 = true := by decide
theorem test_wellformed_familyE : wellFormedWord 0xE19F = false ∧ wellFormedWord 0xE5A2 = false ∧
    wellFormedWord 0xE19E = true := by decide
theorem test_wellformed_familyF : wellFormedWord 0xF100 = false ∧ wellFormedWord 0xF175 = false ∧
    wellFormedWord 0xF1FF = false ∧ wellFormedWord 0xF165 = true := by decide

/-! ### Every constructor's decoding, by a word written out from 30_encoding.md R83; the fields differ, so a swapped one
shows -/

theorem test_decode_family0 : decode 0x00E0 = .ok .cls ∧ decode 0x00EE = .ok .ret := by decide
theorem test_decode_addresses : decode 0x1ABC = .ok (.jp 0xABC) ∧ decode 0x2DEF = .ok (.call 0xDEF) ∧
    decode 0xA123 = .ok (.ldI 0x123) ∧ decode 0xB456 = .ok (.jpV0 0x456) := by decide
theorem test_decode_immediates : decode 0x3A5C = .ok (.seImm 0xA 0x5C) ∧ decode 0x4B6D = .ok (.sneImm 0xB 0x6D) ∧
    decode 0x6C7E = .ok (.ldImm 0xC 0x7E) ∧ decode 0x7D8F = .ok (.addImm 0xD 0x8F) ∧
    decode 0xCE91 = .ok (.rnd 0xE 0x91) := by decide
theorem test_decode_register_skips : decode 0x5360 = .ok (.seReg 3 6) ∧ decode 0x9470 = .ok (.sneReg 4 7) := by decide
theorem test_decode_family8 : decode 0x8120 = .ok (.ldReg 1 2) ∧ decode 0x8231 = .ok (.orReg 2 3) ∧
    decode 0x8342 = .ok (.andReg 3 4) ∧ decode 0x8453 = .ok (.xorReg 4 5) ∧ decode 0x8564 = .ok (.addReg 5 6) ∧
    decode 0x8675 = .ok (.subReg 6 7) ∧ decode 0x8786 = .ok (.shr 7 8) ∧ decode 0x8897 = .ok (.subnReg 8 9) ∧
    decode 0x89AE = .ok (.shl 9 0xA) := by decide
theorem test_decode_draw : decode 0xD12C = .ok (.drw 1 2 0xC) := by decide
theorem test_decode_keys : decode 0xE39E = .ok (.skp 3) ∧ decode 0xE4A1 = .ok (.sknp 4) := by decide
theorem test_decode_familyF : decode 0xF107 = .ok (.ldVxDt 1) ∧ decode 0xF20A = .ok (.ldKey 2) ∧
    decode 0xF315 = .ok (.ldDt 3) ∧ decode 0xF418 = .ok (.ldSt 4) ∧ decode 0xF51E = .ok (.addI 5) ∧
    decode 0xF629 = .ok (.ldFont 6) ∧ decode 0xF733 = .ok (.ldBcd 7) ∧ decode 0xF855 = .ok (.storeRegs 8) ∧
    decode 0xF965 = .ok (.loadRegs 9) := by decide
/-- The unknown words UK2, UK6, UK7, UK8, UK11 and UK13, each rejected by its family's name. -/
theorem test_decode_rejects : decode 0x0123 = .error .unknownFamily0 ∧ decode 0x5121 = .error .unknownFamily5 ∧
    decode 0x912F = .error .unknownFamily9 ∧ decode 0x8128 = .error .unknownFamily8 ∧
    decode 0xE19F = .error .unknownFamilyE ∧ decode 0xF100 = .error .unknownFamilyF := by decide
theorem test_decode_bytes : decodeBytes [0x12, 0x34, 0x56] = .ok (.jp 0x234, [0x56]) ∧
    decodeBytes [0x12] = .error .truncated ∧ decodeBytes [] = .error .truncated := by decide
theorem test_decode_table_word : decodeTableWord 16 0x8124 = some (.addReg 1 2) ∧
    decodeTableWord 16 0x8128 = none := by decide
theorem test_encode : encode (.drw 1 2 0xC) = 0xD12C ∧ encode (.shl 9 0xA) = 0x89AE ∧ encode (.ldBcd 7) = 0xF733 := by
  decide

/-! ### Fetch and the bounds guard -/

/-- FD1. -/
theorem test_fetch_last_word : seen { State.reset with pc := 0xFFE } 0x6001 (fun t => (t.readV 0, t.pc, t.status)) =
    some (1, 0x1000, .running) := by decide
/-- FD2. -/
theorem test_guard_halts : nextOf (step { State.reset with pc := 0xFFF }) = some
    { State.reset with pc := 0xFFF, status := .halted, cause := .fetchRange, faultPc := 0xFFF } := by decide
/-- FD8. -/
theorem test_fetch_odd : seen { State.reset with pc := 0x201 } 0x6107 (fun t => (t.readV 1, t.pc)) =
    some (7, 0x203) := by decide
/-- UK2. -/
theorem test_unknown_word : seen State.reset 0x0123 (fun t => (t.pc, t.status, t.v)) =
    some (0x202, .running, State.reset.v) ∧
    diagOf (State.reset.withFetchWord 16 0x0123) = some (0x0123, 0x200) := by decide
/-- A halted core is made ready, and the word runs. -/
theorem test_placed_word_runs_in_halted_core :
    seen { State.reset with pc := 0xFFF, status := .halted, cause := .fetchRange, faultPc := 0xFFF } 0x6107
      (fun t => (t.readV 1, t.pc, t.status)) = some (7, 0x202, .running) := by decide

/-! ### Control flow -/

/-- CF1. -/
theorem test_jp : seen State.reset 0x1234 (·.pc) = some 0x234 := by decide
/-- CF4. -/
theorem test_call : seen State.reset 0x2300 (fun t => (t.stackEntry 0, t.sp, t.pc)) =
    some (some 0x202, 1, 0x300) := by decide
/-- CF5. -/
theorem test_call_overflow : seen { State.reset with sp := 16 } 0x2300 (fun t => (record t, t.sp)) =
    some ((⟨.fatal, .stackOverflow, 0x200, 0x2300, 0⟩, 0x200), 16) := by decide
/-- CF7. -/
theorem test_ret : seen { State.reset with pc := 0x300, sp := 1, stack := State.reset.stack.set 0 0x202 } 0x00EE
    (fun t => (t.sp, t.pc, t.stackEntry 0)) = some (0, 0x202, some 0x202) := by decide
/-- CF8. -/
theorem test_ret_underflow : seen { State.reset with pc := 0x300 } 0x00EE record =
    some (⟨.fatal, .stackUnderflow, 0x300, 0x00EE, 0⟩, 0x300) := by decide
/-- CF9, CF10. -/
theorem test_seImm : seen (withV [(3, 0x2A)]) 0x332A (·.pc) = some 0x204 ∧
    seen (withV [(3, 0x2A)]) 0x332B (·.pc) = some 0x202 := by decide
/-- CF11, CF12. -/
theorem test_sneImm : seen (withV [(3, 0x2A)]) 0x432A (·.pc) = some 0x202 ∧
    seen (withV [(3, 0x2A)]) 0x432B (·.pc) = some 0x204 := by decide
/-- CF13, CF14. -/
theorem test_seReg : seen (withV [(1, 7), (2, 7)]) 0x5120 (·.pc) = some 0x204 ∧
    seen (withV [(1, 7), (2, 8)]) 0x5120 (·.pc) = some 0x202 := by decide
/-- CF16, CF17. -/
theorem test_sneReg : seen (withV [(1, 7), (2, 8)]) 0x9120 (·.pc) = some 0x204 ∧
    seen (withV [(1, 7), (2, 7)]) 0x9120 (·.pc) = some 0x202 := by decide
/-- CF19. -/
theorem test_jpV0 : seen (withV [(0, 0x10)]) 0xB300 (·.pc) = some 0x310 := by decide
/-- CF20. -/
theorem test_jpV0_unmasked : seen (withV [(0, 0xFF)]) 0xBFFF (·.pc) = some 0x10FE := by decide

/-! ### Register loads and the ALU -/

/-- AL1. -/
theorem test_ldImm : seen State.reset 0x6A42 (fun t => (t.readV 0xA, t.pc)) = some (0x42, 0x202) := by decide
/-- AL3. -/
theorem test_addImm_wraps : seen (withV [(1, 0xFF)]) 0x7102 (fun t => (t.readV 1, t.readV 0xF)) = some (1, 0) := by
  decide
/-- AL4. -/
theorem test_addImm_on_flag : seen (withV [(0xF, 0xFF)]) 0x7F01 (·.readV 0xF) = some 0 := by decide
/-- AL6. -/
theorem test_ldReg : seen (withV [(2, 9)]) 0x8120 (fun t => (t.readV 1, t.readV 2)) = some (9, 9) := by decide
/-- AL7. -/
theorem test_orReg : seen (withV [(1, 0x0F), (2, 0xF0), (0xF, 0x55)]) 0x8121 (fun t => (t.readV 1, t.readV 0xF)) =
    some (0xFF, 0x55) := by decide
/-- AL8. -/
theorem test_andReg : seen (withV [(1, 0x3C), (2, 0x0F), (0xF, 0x55)]) 0x8122 (fun t => (t.readV 1, t.readV 0xF)) =
    some (0x0C, 0x55) := by decide
/-- AL9. -/
theorem test_xorReg : seen (withV [(1, 0x3C), (2, 0x0F), (0xF, 0x55)]) 0x8123 (fun t => (t.readV 1, t.readV 0xF)) =
    some (0x33, 0x55) := by decide
/-- AL11. -/
theorem test_addReg : seen (withV [(1, 0xC8), (2, 0x64)]) 0x8124 (fun t => (t.readV 1, t.readV 0xF)) =
    some (0x2C, 1) := by decide
/-- AL16. -/
theorem test_addReg_into_flag : seen (withV [(0xF, 1), (1, 0xFF)]) 0x8F14 (·.readV 0xF) = some 1 := by decide
/-- AL19. -/
theorem test_subReg : seen (withV [(1, 5), (2, 7)]) 0x8125 (fun t => (t.readV 1, t.readV 0xF)) = some (0xFE, 0) := by
  decide
/-- AL20. -/
theorem test_subReg_equal : seen (withV [(1, 7), (2, 7)]) 0x8125 (fun t => (t.readV 1, t.readV 0xF)) =
    some (0, 1) := by decide
/-- AL30. -/
theorem test_shr_ignores_y : seen (withV [(1, 3), (0xF, 0x99)]) 0x81F6 (fun t => (t.readV 1, t.readV 0xF)) =
    some (1, 1) := by decide
/-- AL29. -/
theorem test_shr_of_flag : seen (withV [(0xF, 0xFF)]) 0x8F06 (·.readV 0xF) = some 0 := by decide
/-- AL32. -/
theorem test_subnReg : seen (withV [(1, 7), (2, 5)]) 0x8127 (fun t => (t.readV 1, t.readV 0xF)) = some (0xFE, 0) := by
  decide
/-- AL34. -/
theorem test_subnReg_into_flag : seen (withV [(0xF, 1), (2, 0)]) 0x8F27 (·.readV 0xF) = some 0 := by decide
/-- AL35. -/
theorem test_shl : seen (withV [(1, 0x81)]) 0x810E (fun t => (t.readV 1, t.readV 0xF)) = some (2, 1) := by decide
/-- AL38. -/
theorem test_shl_of_flag : seen (withV [(0xF, 0x80)]) 0x8F0E (·.readV 0xF) = some 2 := by decide
/-- AL39, the draw given as an argument. -/
theorem test_rnd_mask : (State.reset.maskRandom 3 0x0F 0xB7).readV 3 = 7 := by decide
/-- AL40, AL43: a zero mask gives 00 for any draw, and VF is an ordinary destination. -/
theorem test_rnd_masks : (∀ r, (State.reset.maskRandom 3 0x00 r).readV 3 = 0) ∧
    (State.reset.maskRandom 0xF 0xFF 0x5A).readV 0xF = 0x5A := ⟨by simp [State.maskRandom], by decide⟩

/-! ### Index register and memory -/

/-- MM1. -/
theorem test_ldI : seen State.reset 0xA2F0 (·.i) = some 0x02F0 := by decide
/-- MM4. -/
theorem test_addI_passes_memory : seen { withV [(2, 1)] with i := 0x0FFF } 0xF21E (fun t => (t.i, t.status)) =
    some (0x1000, .running) := by decide
/-- MM5. -/
theorem test_addI_wraps : seen { withV [(2, 1), (0xF, 0x55)] with i := 0xFFFF } 0xF21E
    (fun t => (t.i, t.readV 0xF)) = some (0, 0x55) := by decide
/-- MM10. -/
theorem test_ldFont : seen (withV [(7, 0xFF)]) 0xF729 (·.i) = some 0x04FB := by decide
/-- MM12. -/
theorem test_ldBcd : seen { withV [(4, 0x9C)] with i := 0x300 } 0xF433
    (fun t => (t.byte 0x300, t.byte 0x301, t.byte 0x302, t.i)) = some (1, 5, 6, 0x300) := by decide
/-- MM16. -/
theorem test_ldBcd_out_of_range : seen { withV [(4, 0x7B)] with i := 0xFFE } 0xF433
    (fun t => (record t, t.byte 0xFFE, t.byte 0xFFF)) =
    some ((⟨.fatal, .memRange, 0x200, 0xF433, 0x1000⟩, 0x200), 0, 0) := by decide
/-- MM18. -/
theorem test_storeRegs : seen { withV [(0, 1), (1, 2), (2, 3), (3, 4)] with i := 0x300 } 0xF255
    (fun t => (t.byte 0x300, t.byte 0x301, t.byte 0x302, t.byte 0x303, t.i)) = some (1, 2, 3, 0, 0x300) := by decide
/-- MM20. -/
theorem test_storeRegs_out_of_range : seen { withV (ramp 0x10) with i := 0xFF1 } 0xFF55
    (fun t => (record t, t.byte 0xFF1)) = some ((⟨.fatal, .memRange, 0x200, 0xFF55, 0x1000⟩, 0x200), 0) := by decide
/-- MM21. -/
theorem test_loadRegs : seen (poke { State.reset with i := 0x300 } 0x300 [0xAA, 0xBB, 0xCC]) 0xF165
    (fun t => (t.readV 0, t.readV 1, t.readV 2)) = some (0xAA, 0xBB, 0) := by decide
/-- MM24. -/
theorem test_loadRegs_out_of_range : seen { State.reset with i := 0xFFFF } 0xF065 record =
    some (⟨.fatal, .memRange, 0x200, 0xF065, 0xFFFF⟩, 0x200) := by decide

/-! ### Display -/

/-- DS1. -/
theorem test_cls : seen { withV [(0xF, 9)] with disp := (Display.blank.flip 0 0).flip 63 31 } 0x00E0
    (fun t => (t.disp.pixel 0 0, t.disp.pixel 63 31, t.readV 0xF)) = some (false, false, 9) := by decide
/-- DS2. -/
theorem test_drw_wraps : seen (poke { withV [(0, 0x3E)] with i := 0x300 } 0x300 [0xC3]) 0xD011
    (fun t => (lit [60, 61, 62, 63, 0, 1, 2, 3, 4, 5, 6] [0, 1, 31] t.disp, t.readV 0xF)) =
    some ([(62, 0), (63, 0), (4, 0), (5, 0)], 0) := by decide
/-- DS7. -/
theorem test_drw_out_of_range : seen { withV [(0xF, 7)] with i := 0xFFF } 0xD002 (fun t => (record t, t.readV 0xF)) =
    some ((⟨.fatal, .memRange, 0x200, 0xD002, 0x1000⟩, 0x200), 7) := by decide
/-- DS9, its second STEP. -/
theorem test_drw_collision : (Canvas.drawRow ⟨Canvas.disp (Canvas.drawRow ⟨Display.blank, false⟩ 10 5 0xF0), false⟩
    12 5 0xF0).hit = true := by decide

/-! ### Keys and timers; the answers of the input collaborator are given as arguments -/

/-- KY5. -/
theorem test_skp_key_range : seen (withV [(5, 0x10)]) 0xE59E record =
    some (⟨.fatal, .keyRange, 0x200, 0xE59E, 0x10⟩, 0x200) := by decide
/-- KY1, KY2: the skip for either answer. -/
theorem test_key_skip_answers : (({ State.reset with pc := 0x202 } : State).skipIf true).pc = 0x204 ∧
    (({ State.reset with pc := 0x202 } : State).skipIf false).pc = 0x202 := by decide
/-- KY6. -/
theorem test_sknp_key_range : seen (withV [(5, 0xFF)]) 0xE5A1 record =
    some (⟨.fatal, .keyRange, 0x200, 0xE5A1, 0xFF⟩, 0x200) := by decide
/-- KY9. -/
theorem test_ldKey_waits : State.keyWait { State.reset with pc := 0x202 } 3 (heldKeys (fun _ => false)) 0 =
    State.reset := by decide
/-- KY12: either of two held keys. -/
theorem test_ldKey_chooses :
    (State.reset.keyWait 3 (heldKeys (fun k => k = 2 || k = 9)) 0).readV 3 = 2 ∧
    (State.reset.keyWait 3 (heldKeys (fun k => k = 2 || k = 9)) 1).readV 3 = 9 := by decide
/-- TM1. -/
theorem test_ldDt : seen (withV [(2, 5)]) 0xF215 (fun t => (t.dt, t.st)) = some (5, 0) := by decide
/-- TM2. -/
theorem test_ldSt : seen (withV [(2, 0x10)]) 0xF218 (fun t => (t.dt, t.st, soundOut t)) = some (0, 0x10, 0x10) := by
  decide
/-- TM3. -/
theorem test_ldVxDt : seen { State.reset with dt := 0x2A, st := 1 } 0xF107 (·.readV 1) = some 0x2A := by decide
/-- TM5, TM6. -/
theorem test_tick : tick { State.reset with dt := 1, st := 3 } = { State.reset with dt := 0, st := 2 } ∧
    tick State.reset = State.reset := by decide
/-- LS4. -/
theorem test_load : nextOf (load [0x60, 0x01] { withV [(1, 5)] with sp := 3, dt := 9, status := .fatal }) =
    some { State.reset with mem := [(0x200, 0x60), (0x201, 0x01)] } := by decide

/-! ### Witnesses: for every obligation with hypotheses a state and operands that meet them -/

/-- A state that runs the word `w` at the last fetchable address. -/
def lastWord (w : Word) : State := poke { State.reset with pc := 0xFFE } 0xFFE [highByte w, lowByte w]

/-- HALTED, as FD2 leaves it. -/
def haltedState : State :=
  { State.reset with pc := 0xFFF, status := .halted, cause := .fetchRange, faultPc := 0xFFF }

/-- FATAL, as a bare return at 0x200 leaves it. -/
def fatalState : State :=
  { poke State.reset 0x200 [0x00, 0xEE] with
    status := .fatal, cause := .stackUnderflow, faultPc := 0x200, faultOp := 0x00EE }

theorem witness_DecodedWordEncodesBack : decode 0xFF65 = .ok (.loadRegs 0xF) := by decide
theorem witness_DecoderFollowsOpcodeTable : decode 0x00EE = .ok .ret ∧ (Instr.row .ret).covers 0x00EE = true ∧
    decode 0x00EF = .error .unknownFamily0 := by decide
theorem witness_AssemblyGivesEncodedBytes : ∀ x y, Instr.cls ≠ .shr x y ∧ Instr.cls ≠ .shl x y := by
  intro x y
  exact ⟨nofun, nofun⟩
theorem witness_StepFetchesBigEndianAndRuns : (lastWord 0x60FF).status = .running ∧
    (lastWord 0x60FF).pc.toNat + 1 ≤ 0xFFF ∧
    (0x60FF : Word).toNat = ((lastWord 0x60FF).byte (lastWord 0x60FF).pc.toNat).toNat * 256 +
      ((lastWord 0x60FF).byte ((lastWord 0x60FF).pc.toNat + 1)).toNat ∧
    decode 0x60FF = .ok (.ldImm 0 0xFF) := by decide
theorem witness_UnknownWordOnlyAdvances : (lastWord 0x0FFF).status = .running ∧ (lastWord 0x0FFF).pc.toNat ≤ 0xFFE ∧
    decode (fetchWord (lastWord 0x0FFF)) = .error .unknownFamily0 := by decide
theorem witness_DiagnosticOnlyForUnknownWords : diagOf (lastWord 0xF1FF) ≠ none := by decide
theorem witness_GuardHaltsOutsideMemory : ({ State.reset with pc := 0xFFF } : State).status = .running ∧
    0xFFE < ({ State.reset with pc := 0xFFF } : State).pc.toNat := by decide
theorem witness_GuardHaltsOutsideMemory_top : ({ State.reset with pc := 0xFFFF } : State).status = .running ∧
    0xFFE < ({ State.reset with pc := 0xFFFF } : State).pc.toNat := by decide
theorem witness_StoppedCoreIgnoresSteps : haltedState.status ≠ .running ∧ fatalState.status ≠ .running := by decide
theorem witness_PlacedWordRunsNext : Memory.wf (lastWord 0x1234).mem = true ∧ (lastWord 0x1234).status = .running ∧
    (lastWord 0x1234).pc.toNat ≤ 0xFFE := by decide

/-- V0 and V1 hold the word 0x00E0, and I and pc are both 0xFFE. -/
def storesOverPc : State := { withV [(0, 0x00), (1, 0xE0)] with i := 0xFFE, pc := 0xFFE }

theorem witness_StoreSeenByNextFetch : Memory.wf storesOverPc.mem = true ∧ storesOverPc.status = .running ∧
    1 ≤ (1 : Reg).toNat ∧ storesOverPc.i = storesOverPc.pc ∧ storesOverPc.i.toNat + (1 : Reg).toNat ≤ 0xFFF ∧
    (0x00E0 : Word).toNat = (storesOverPc.readV 0).toNat * 256 + (storesOverPc.readV 1).toNat ∧
    decode 0x00E0 = .ok .cls := by decide
theorem witness_SumAndDifferenceLaws : (0xE : Reg) ≠ 0xF#4 ∧ 255 = ((withV [(0xE, 0xFF), (1, 1)]).readV 0xE).toNat ∧
    1 = ((withV [(0xE, 0xFF), (1, 1)]).readV 1).toNat := by decide
theorem witness_ShiftsCaptureBitThenShift : 0x81 = ((withV [(1, 0x81)]).readV 1).toNat ∧
    0x80 = ((withV [(0xF, 0x80)]).readV 0xF#4).toNat := by decide
theorem witness_RandomByteIsMasked : (0x7F : Byte).getLsbD 7 = false ∧ (0 : Reg) ≠ 0xF := by decide
theorem witness_CallPushesReturnAddress : State.reset.sp.toNat < 16 ∧
    ({ State.reset with sp := 15 } : State).sp.toNat < 16 := by decide
theorem witness_ReturnPopsAddress : 0 < ({ State.reset with sp := 1 } : State).sp.toNat ∧
    ({ State.reset with sp := 1 } : State).sp.toNat ≤ 16 ∧ 0 < ({ State.reset with sp := 16 } : State).sp.toNat ∧
    ({ State.reset with sp := 16 } : State).sp.toNat ≤ 16 := by decide
theorem witness_StackHoldsSixteenCalls_calls : State.reset.sp = 0#8 ∧ State.reset.status = .running ∧
    (List.replicate 16 (0x300 : Addr12)).length ≤ 16 := by decide
theorem witness_StackHoldsSixteenCalls_errors : ({ State.reset with sp := 16 } : State).sp = 16#8 ∧
    State.reset.sp = 0#8 := by decide
theorem witness_StackErrorsEndFatal : ({ State.reset with sp := 16 } : State).sp = 16#8 ∧ State.reset.sp = 0#8 ∧
    16 < ({ State.reset with sp := 17 } : State).sp.toNat ∧ 16 < ({ State.reset with sp := 255 } : State).sp.toNat := by
  decide
theorem witness_ReturnUndoesCall : ∃ t : State, ({ State.reset with sp := 15 } : State).sp.toNat < 16 ∧
    exec (.call 0x300) { State.reset with sp := 15 } = .next t ∧ (t.writeV 1 7).sp = t.sp ∧
    (t.writeV 1 7).stack = t.stack := ⟨_, by decide, rfl, rfl, rfl⟩
theorem witness_BcdStoresThreeDigits : Memory.wf ({ State.reset with i := 0xFFD } : State).mem = true ∧
    ({ State.reset with i := 0xFFD } : State).i.toNat + 2 ≤ 0xFFF := by decide
theorem witness_StoreRegistersWritesRange : Memory.wf ({ State.reset with i := 0xFF0 } : State).mem = true ∧
    ({ State.reset with i := 0xFF0 } : State).i.toNat + (0xF : Reg).toNat ≤ 0xFFF := by decide
theorem witness_LoadRegistersReadsRange : ({ State.reset with i := 0xFFF } : State).i.toNat + (0 : Reg).toNat ≤ 0xFFF ∧
    ({ State.reset with i := 0xFF0 } : State).i.toNat + (0xF : Reg).toNat ≤ 0xFFF := by decide
theorem witness_StoreLoadRoundTrip : ∃ t : State, Memory.wf ({ withV (ramp 0x10) with i := 0xFF0 } : State).mem = true ∧
    ({ withV (ramp 0x10) with i := 0xFF0 } : State).i.toNat + (0xF : Reg).toNat ≤ 0xFFF ∧
    exec (.storeRegs 0xF) { withV (ramp 0x10) with i := 0xFF0 } = .next t ∧ (t.writeV 3 0).mem = t.mem ∧
    (t.writeV 3 0).i = t.i := ⟨_, by decide, by decide, rfl, rfl, rfl⟩
theorem witness_OutOfRangeAccessEndsFatal : 0xFFF < ({ State.reset with i := 0xFFE } : State).i.toNat + 2 ∧
    0xFFF < ({ State.reset with i := 0xFF1 } : State).i.toNat + (0xF : Reg).toNat ∧
    0xFFF < ({ State.reset with i := 0x1000 } : State).i.toNat + (0 : Reg).toNat ∧ 0 < (2 : RowCount).toNat ∧
    0xFFF < ({ State.reset with i := 0xFFF } : State).i.toNat + (2 : RowCount).toNat - 1 := by decide
theorem witness_OutOfRangeAccessEndsFatal_top : 0xFFF < ({ State.reset with i := 0xFFFF } : State).i.toNat + 2 ∧
    0xFFF < ({ State.reset with i := 0xFFFF } : State).i.toNat + (0 : Reg).toNat ∧ 0 < (1 : RowCount).toNat ∧
    0xFFF < ({ State.reset with i := 0xFFFF } : State).i.toNat + (1 : RowCount).toNat - 1 := by decide
theorem witness_ClearUnlightsEveryPixel : invoked (lastWord 0x00E0) = some .cls := by decide
theorem witness_DrawXorsSpriteAndReportsCollision :
    ((0 : RowCount) = 0 ∨ ({ State.reset with i := 0xFFFF } : State).i.toNat + (0 : RowCount).toNat - 1 ≤ 0xFFF) ∧
    ((1 : RowCount) = 0 ∨ ({ State.reset with i := 0xFFF } : State).i.toNat + (1 : RowCount).toNat - 1 ≤ 0xFFF) ∧
    ((15 : RowCount) = 0 ∨ ({ State.reset with i := 0xFF1 } : State).i.toNat + (15 : RowCount).toNat - 1 ≤ 0xFFF) ∧
    SpriteCovers (poke { State.reset with i := 0xFFF } 0xFFF [0x80]) 63 31 1 63 31 := by
  refine ⟨by decide, by decide, by decide, 0, 0, by decide, by decide, by decide, by decide, by decide⟩
theorem witness_DrawTwiceRestoresDisplay : (0 : Reg) ≠ 0xF#4 ∧ (0xE : Reg) ≠ 0xF#4 ∧
    ((1 : RowCount) = 0 ∨ ({ State.reset with i := 0xFFF } : State).i.toNat + (1 : RowCount).toNat - 1 ≤ 0xFFF) := by
  decide
theorem witness_KeySkipsFollowAnswer : (State.reset.readV 5).toNat = (0x0 : Key).toNat ∧
    ((withV [(5, 0xF)]).readV 5).toNat = (0xF : Key).toNat := by decide
theorem witness_KeyCodeOutOfRangeEndsFatal : 0xF < ((withV [(5, 0x10)]).readV 5).toNat ∧
    0xF < ((withV [(5, 0xFF)]).readV 5).toNat := by decide
theorem witness_KeyWaitPollsOrLoadsHeldKey : (∀ k, (fun _ : Key => false) k = false) ∧
    (∃ k, (fun k : Key => k == 0xF) k = true) ∧ (fun k : Key => k == 0x0) 0x0 = true := ⟨fun _ => rfl, ⟨0xF, rfl⟩, rfl⟩
theorem witness_ResetStateValues : (0 : Byte).toNat < 16 ∧ (15 : Byte).toNat < 16 := by decide
theorem witness_LoadGivesFreshState : (List.replicate 3584 (0xAA : Byte)).length ≤ 3584 ∧
    ([] : List Byte).length ≤ 3584 := ⟨by rw [List.length_replicate], by decide⟩
theorem witness_OversizedRomIsRefused : 3584 < (List.replicate 3585 (0xAA : Byte)).length := by
  rw [List.length_replicate]
  decide
theorem witness_SnapshotAfterDrawOrClear : (∃ t, step (lastWord 0x00E0) = .next t) ∧
    invoked (lastWord 0xD125) = some (.drw 1 2 5) ∧ ∃ t, step (lastWord 0x6001) = .next t ∧
      snapshotOf (lastWord 0x6001) t = none := ⟨⟨_, rfl⟩, by decide, _, rfl, by decide⟩

theorem reset_inv : Inv State.reset := ⟨by decide, by decide, by decide, by decide, by decide⟩
theorem halted_inv : Inv haltedState := ⟨by decide, by decide, by decide, by decide, by decide⟩
theorem fatal_inv : Inv fatalState := ⟨by decide, by decide, by decide, by decide, by decide⟩
theorem last_word_inv : Inv (lastWord 0x2300) := ⟨by decide, by decide, by decide, by decide, by decide⟩

theorem witness_StepKeepsInvariant : ∃ t, Inv (lastWord 0x2300) ∧ step (lastWord 0x2300) = .next t :=
  ⟨_, last_word_inv, rfl⟩
theorem witness_EverySchedulePreservesInvariant : Inv State.reset ∧ Inv haltedState ∧ Inv fatalState :=
  ⟨reset_inv, halted_inv, fatal_inv⟩
theorem witness_StepAlwaysAnswers : ({ State.reset with sp := 16 } : State).sp.toNat ≤ 16 := by decide
theorem witness_OnlyNamedInstructionsWrite : (∃ t, exec (.ldImm 1 7) State.reset = .next t ∧
      t.readV 1 ≠ State.reset.readV 1) ∧
    (∃ t, exec (.ldI 7) State.reset = .next t ∧ t.i ≠ State.reset.i) ∧
    (∃ t, exec (.call 7) State.reset = .next t ∧ t.sp ≠ State.reset.sp) ∧
    (∃ t, exec (.ldDt 1) (withV [(1, 7)]) = .next t ∧ t.dt ≠ (withV [(1, 7)]).dt) ∧
    (∃ t, exec (.ldSt 1) (withV [(1, 7)]) = .next t ∧ t.st ≠ (withV [(1, 7)]).st) ∧
    (∃ t, exec (.storeRegs 1) (withV [(1, 7)]) = .next t ∧ t.mem ≠ (withV [(1, 7)]).mem) ∧
    (∃ t, exec .cls { State.reset with disp := Display.blank.flip 0 0 } = .next t ∧
      t.disp ≠ Display.blank.flip 0 0) :=
  ⟨⟨_, rfl, by decide⟩, ⟨_, rfl, by decide⟩, ⟨_, rfl, by decide⟩, ⟨_, rfl, by decide⟩, ⟨_, rfl, by decide⟩,
    ⟨_, rfl, by decide⟩, ⟨_, rfl, by decide⟩⟩
theorem witness_OnlyControlTransfersSetPc : ∃ t, State.reset.status = .running ∧ exec (.jp 7) State.reset = .next t ∧
    t.pc ≠ State.reset.pc := ⟨_, rfl, rfl, by decide⟩
theorem witness_OnlyNamedInstructionsRaise : ∃ t, State.reset.status = .running ∧ exec .ret State.reset = .next t ∧
    t.status ≠ .running := ⟨_, rfl, rfl, by decide⟩
theorem witness_FatalStepIsPrecise : ∃ t, (lastWord 0x00EE).status = .running ∧ step (lastWord 0x00EE) = .next t ∧
    t.status = .fatal := ⟨_, rfl, rfl, rfl⟩
theorem witness_SoundTimerNeverObserved : ∃ t, step (lastWord 0xF118) = .next t := ⟨_, rfl⟩
theorem witness_DisplayReachesOnlyTheFlag : ∃ t, step (lastWord 0xD125) = .next t := ⟨_, rfl⟩
theorem witness_DrawsAreNeverReused : (∃ t, exec (.rnd 1 7) State.reset = .next t) ∧
    takesDraw State.reset (.rnd 1 7) = true ∧ (∃ t, serve .step State.reset = .next t) := ⟨⟨_, rfl⟩, rfl, _, rfl⟩

end Sys2Proof.Tests
end

section
/-! What a STEP fetches, as a number, and that it runs what the fetched word decodes to (30_encoding.md R75). -/

namespace Sys2Proof.Machine

theorem fetchWord_toNat (s : State) :
    (fetchWord s).toNat = (s.byte s.pc.toNat).toNat * 256 + (s.byte (s.pc.toNat + 1)).toNat :=
  wordOfBytes_toNat _ _

theorem step_of_decode_ok {s : State} {i : Instr} (hrun : s.status = .running) (hpc : s.pc.toNat ≤ 0xFFE)
    (hdec : decode (fetchWord s) = .ok i) : step s = exec i (advancePc s) := by
  obtain ⟨j, hj, hstep⟩ | ⟨e, he, _⟩ := step_running hrun ((guardFires_eq_false s).mpr hpc)
  · obtain rfl : i = j := Except.ok.inj (hdec.symm.trans hj)
    exact hstep
  · exact nomatch hdec.symm.trans he

/-- Settles O7: the word `op` is the fetched one, since both have the same value as a number, and a running core inside
memory runs what the fetched word decodes to. -/
theorem stepFetchesBigEndianAndRuns : Obligations.StepFetchesBigEndianAndRuns := by
  intro s op i hrun hpc hop hdec
  have hfetch : op = fetchWord s := BitVec.eq_of_toNat_eq (hop.trans (fetchWord_toNat s).symm)
  exact step_of_decode_ok hrun (by omega) (hfetch ▸ hdec)

end Sys2Proof.Machine
end

section
/-! The control-flow instructions: calls and returns at the ends of the stack (41_control_flow.md R100, R102, R110). -/

namespace Sys2Proof.Machine

theorem exec_call_of_room (nnn : Addr12) {s : State} (h : s.sp.toNat < 16) :
    exec (.call nnn) s =
      .next { s with stack := s.stack.set s.sp.toNat s.pc h, sp := s.sp + 1, pc := addrOperand nnn } := by
  obtain ⟨h16, _⟩ | ⟨_, hnext⟩ | ⟨hgt, _⟩ := execCall_cases nnn s
  · simp [h16] at h
  · exact hnext
  · omega

theorem exec_call_of_full (nnn : Addr12) {s : State} (h : s.sp = 16#8) :
    exec (.call nnn) s = .next (fatalEntry (encode (.call nnn)) ⟨.stackOverflow, 0⟩ s) := by
  obtain ⟨_, hfatal⟩ | ⟨hlt, _⟩ | ⟨hgt, _⟩ := execCall_cases nnn s
  · exact hfatal
  · simp [h] at hlt
  · simp [h] at hgt

theorem exec_ret_of_empty {s : State} (h : s.sp = 0#8) :
    exec .ret s = .next (fatalEntry (encode .ret) ⟨.stackUnderflow, 0⟩ s) := by
  obtain ⟨_, hfatal⟩ | ⟨hne, _⟩ | ⟨hgt, _⟩ := execRet_cases s
  · exact hfatal
  · exact absurd h hne
  · simp [h] at hgt

theorem execAll_cons_of_next {i : Instr} {s t : State} (h : exec i s = .next t) (is : List Instr) :
    execAll (i :: is) s = execAll is t := by
  rw [execAll, h]

/-- As many calls in a row as the stack has room for all succeed, whatever SP they start from. -/
theorem execAll_calls (targets : List Addr12) (s : State) (hroom : s.sp.toNat + targets.length ≤ 16) :
    ∃ t, execAll (targets.map .call) s = .next t ∧ t.sp.toNat = s.sp.toNat + targets.length ∧
      t.status = s.status := by
  induction targets generalizing s with
  | nil => exact ⟨s, rfl, rfl, rfl⟩
  | cons nnn targets ih =>
    rw [List.length_cons] at hroom
    obtain ⟨u, hcall, hpushed, hkept⟩ : ∃ u, exec (.call nnn) s = .next u ∧ u.sp.toNat = s.sp.toNat + 1 ∧
        u.status = s.status :=
      ⟨_, exec_call_of_room nnn (by omega), BitVec.toNat_add_of_lt (by change s.sp.toNat + 1 < 256; omega), rfl⟩
    obtain ⟨t, hrun, hcount, hstatus⟩ := ih u (by omega)
    refine ⟨t, (execAll_cons_of_next hcall _).trans hrun, ?_, hstatus.trans hkept⟩
    rw [hcount, hpushed, List.length_cons]
    omega

/-- Settles O26: the calls by induction over the targets with SP free, the two errors by the fatal entry, which moves
neither SP nor an entry. -/
theorem stackHoldsSixteenCalls : Obligations.StackHoldsSixteenCalls := by
  refine ⟨fun targets s hsp hrun hlen => ?_, fun nnn s hsp => ⟨_, exec_call_of_full nnn hsp, rfl, rfl, rfl, rfl⟩,
    fun s hsp => ⟨_, exec_ret_of_empty hsp, rfl, rfl, rfl, rfl⟩⟩
  have hzero : s.sp.toNat = 0 := by rw [hsp]; rfl
  obtain ⟨t, hnext, hcount, hstatus⟩ := execAll_calls targets s (by omega)
  exact ⟨t, hnext, by omega, hstatus.trans hrun⟩

end Sys2Proof.Machine
end

section
/-! The skips on a register's value (41_control_flow.md R103 to R106, R108). -/

namespace Sys2Proof

theorem append_eq_packXYN (f : BitVec 4) (x y : Reg) (n : BitVec 4) : f ++ x ++ y ++ n = packXYN f x y n :=
  BitVec.append_assoc

theorem decode_seImm (x : Reg) (nn : Byte) : decode (packXNN 0x3 x nn) = .ok (.seImm x nn) := by simp [decode]

theorem decode_sneImm (x : Reg) (nn : Byte) : decode (packXNN 0x4 x nn) = .ok (.sneImm x nn) := by simp [decode]

theorem decode_seReg (x y : Reg) : decode (packXYN 0x5 x y 0x0) = .ok (.seReg x y) := by simp [decode, decodeFamily5]

theorem decode_sneReg (x y : Reg) : decode (packXYN 0x9 x y 0x0) = .ok (.sneReg x y) := by simp [decode, decodeFamily9]

end Sys2Proof

namespace Sys2Proof.Machine

theorem State.skipIf_eq (s : State) (c : Bool) :
    s.skipIf c = { s with pc := if c then s.pc + 2 else s.pc } := by
  cases c <;> rfl

theorem State.skipIf_beq (s : State) (a b : Byte) :
    s.skipIf (a == b) = { s with pc := if a = b then s.pc + 2 else s.pc } := by
  simp only [skipIf_eq, beq_iff_eq]

theorem State.skipIf_bne (s : State) (a b : Byte) :
    s.skipIf (a != b) = { s with pc := if a = b then s.pc else s.pc + 2 } := by
  simp only [skipIf_eq, bne_iff_ne, ite_not]

/-- Settles O23: each of the four is one `skipIf`, on equality or on its negation. -/
theorem skipsAdvancePcByTwoExtra : Obligations.SkipsAdvancePcByTwoExtra := by
  intro x y nn
  refine ⟨decode_seImm x nn, decode_sneImm x nn, ?_, ?_, fun s => ⟨?_, ?_, ?_, ?_⟩⟩
  · exact (congrArg decode (append_eq_packXYN ..)).trans (decode_seReg x y)
  · exact (congrArg decode (append_eq_packXYN ..)).trans (decode_sneReg x y)
  · exact congrArg Host.Outcome.next (s.skipIf_beq _ _)
  · exact congrArg Host.Outcome.next (s.skipIf_bne _ _)
  · exact congrArg Host.Outcome.next (s.skipIf_beq _ _)
  · exact congrArg Host.Outcome.next (s.skipIf_bne _ _)

end Sys2Proof.Machine
end

section
/-! Register loads and the logic instructions (42_register_alu.md R122 to R127): each is one `writeV`. -/

namespace Sys2Proof

theorem decode_append_of_packXYN {f n : BitVec 4} {x y : Reg} {i : Instr} (h : decode (packXYN f x y n) = .ok i) :
    decode (f ++ x ++ y ++ n) = .ok i :=
  (congrArg decode (append_eq_packXYN f x y n)).trans h

theorem decode_ldImm (x : Reg) (nn : Byte) : decode (packXNN 0x6 x nn) = .ok (.ldImm x nn) := by simp [decode]

theorem decode_addImm (x : Reg) (nn : Byte) : decode (packXNN 0x7 x nn) = .ok (.addImm x nn) := by simp [decode]

theorem decode_ldReg (x y : Reg) : decode (packXYN 0x8 x y 0x0) = .ok (.ldReg x y) := by simp [decode, decodeFamily8]

theorem decode_orReg (x y : Reg) : decode (packXYN 0x8 x y 0x1) = .ok (.orReg x y) := by simp [decode, decodeFamily8]

theorem decode_andReg (x y : Reg) : decode (packXYN 0x8 x y 0x2) = .ok (.andReg x y) := by simp [decode, decodeFamily8]

theorem decode_xorReg (x y : Reg) : decode (packXYN 0x8 x y 0x3) = .ok (.xorReg x y) := by simp [decode, decodeFamily8]

end Sys2Proof

namespace Sys2Proof.Machine

theorem exec_ldImm (x : Reg) (nn : Byte) (s : State) : exec (.ldImm x nn) s = .next (s.writeV x nn) := rfl

theorem exec_addImm (x : Reg) (nn : Byte) (s : State) :
    exec (.addImm x nn) s = .next (s.writeV x (s.readV x + nn)) := rfl

theorem exec_ldReg (x y : Reg) (s : State) : exec (.ldReg x y) s = .next (s.writeV x (s.readV y)) := rfl

theorem exec_orReg (x y : Reg) (s : State) :
    exec (.orReg x y) s = .next (s.writeV x (s.readV x ||| s.readV y)) := rfl

theorem exec_andReg (x y : Reg) (s : State) :
    exec (.andReg x y) s = .next (s.writeV x (s.readV x &&& s.readV y)) := rfl

theorem exec_xorReg (x y : Reg) (s : State) :
    exec (.xorReg x y) s = .next (s.writeV x (s.readV x ^^^ s.readV y)) := rfl

theorem changesOnlyReg_writeV (s : State) (x : Reg) (b : Byte) : ChangesOnlyReg s (s.writeV x b) x :=
  ⟨fun _ hne => s.readV_writeV_of_ne b hne, s.writeV_frame x b⟩

/-- Settles O14: the instruction is a write of the immediate to `V[x]`. -/
theorem loadImmediateWritesRegister : Obligations.LoadImmediateWritesRegister := fun x nn =>
  ⟨decode_ldImm x nn, fun s => ⟨_, exec_ldImm x nn s, s.readV_writeV_self x nn, changesOnlyReg_writeV s x nn⟩⟩

/-- Settles O15: the instruction is a write of the 8-bit sum, which is the sum modulo 256. -/
theorem addImmediateWrapsWithoutFlag : Obligations.AddImmediateWrapsWithoutFlag := by
  refine fun x nn => ⟨decode_addImm x nn, fun s => ⟨_, exec_addImm x nn s, ?_, changesOnlyReg_writeV s x _⟩⟩
  rw [State.readV_writeV_self, BitVec.toNat_add]

/-- Settles O16: each of the four is a write to `V[x]` of `V[y]` or of a bitwise operation on `V[x]` and `V[y]`. -/
theorem copyAndLogicWriteDestinationOnly : Obligations.CopyAndLogicWriteDestinationOnly := by
  intro x y
  refine ⟨decode_append_of_packXYN (decode_ldReg x y), decode_append_of_packXYN (decode_orReg x y),
    decode_append_of_packXYN (decode_andReg x y), decode_append_of_packXYN (decode_xorReg x y),
    fun s => ⟨?_, ?_, ?_, ?_⟩⟩
  · exact ⟨_, exec_ldReg x y s, s.readV_writeV_self x _, changesOnlyReg_writeV s x _⟩
  · refine ⟨_, exec_orReg x y s, changesOnlyReg_writeV s x _, fun k => ?_⟩
    rw [State.readV_writeV_self, BitVec.getLsbD_or]
  · refine ⟨_, exec_andReg x y s, changesOnlyReg_writeV s x _, fun k => ?_⟩
    rw [State.readV_writeV_self, BitVec.getLsbD_and]
  · refine ⟨_, exec_xorReg x y s, changesOnlyReg_writeV s x _, fun k => ?_⟩
    rw [State.readV_writeV_self, BitVec.getLsbD_xor]

end Sys2Proof.Machine
end

section
/-! The index loads: an address and a glyph address, widened into I (43_index_memory.md R150, R152). -/

namespace Sys2Proof

theorem decode_ldI (nnn : Addr12) : decode (packNNN 0xA nnn) = .ok (.ldI nnn) := by simp [decode]

theorem decode_ldFont (x : Reg) : decode (packXNN 0xF x 0x29) = .ok (.ldFont x) := by simp [decode, decodeFamilyF]

end Sys2Proof

namespace Sys2Proof.Machine

theorem exec_ldI (nnn : Addr12) (s : State) : exec (.ldI nnn) s = .next { s with i := addrOperand nnn } := rfl

theorem exec_ldFont (x : Reg) (s : State) : exec (.ldFont x) s = .next { s with i := fontAddress (s.readV x) } := rfl

@[simp] theorem addrOperand_toNat (nnn : Addr12) : (addrOperand nnn).toNat = nnn.toNat :=
  BitVec.toNat_setWidth_of_le (by decide)

/-- The product is exact: at most 255 * 5, it fits the 16 bits of I. -/
@[simp] theorem fontAddress_toNat (b : Byte) : (fontAddress b).toNat = b.toNat * 5 := by
  have hfits : b.toNat * 5 < 2 ^ 16 := by have := b.isLt; omega
  rw [fontAddress, BitVec.toNat_ofNat, Nat.mod_eq_of_lt hfits]

/-- Settles O29: each of the two is a write of I alone, by a widened address or by a product that fits. -/
theorem indexLoads : Obligations.IndexLoads :=
  ⟨fun nnn => ⟨decode_ldI nnn, fun s => ⟨_, exec_ldI nnn s, addrOperand_toNat nnn, rfl⟩⟩,
    fun x => ⟨decode_ldFont x, fun s => ⟨_, exec_ldFont x s, fontAddress_toNat (s.readV x), rfl⟩⟩⟩

end Sys2Proof.Machine
end

section
/-! Clearing the display and the snapshot offered after it (44_display.md R170, 60_exceptions.md R222). -/

namespace Sys2Proof

theorem decode_cls : decode 0x00E0#16 = .ok .cls := by decide

end Sys2Proof

namespace Sys2Proof.Machine

theorem exec_cls (s : State) : exec .cls s = .next { s with disp := Display.blank } := rfl

/-- A cycle that invoked a draw or clear opcode offers the display it ended with, whatever else it did. -/
theorem snapshotOf_of_drawsOrClears {s : State} {i : Instr} (hinv : invoked s = some i) (hdraws : drawsOrClears i = true)
    (t : State) : snapshotOf s t = some t.disp := by
  simp only [snapshotOf, hinv, hdraws, if_true]

/-- Settles O36: the instruction replaces the display by the blank one, and 00E0 is among the opcodes that offer a
snapshot. -/
theorem clearUnlightsEveryPixel : Obligations.ClearUnlightsEveryPixel :=
  ⟨decode_cls, fun s => ⟨_, exec_cls s, Display.pixel_blank, rfl,
    fun _ hinv => snapshotOf_of_drawsOrClears hinv rfl _⟩⟩

end Sys2Proof.Machine
end

section
/-! The timer instructions: DT into a register, a register into DT or ST (45_keys_timers.md R183 to R185). -/

namespace Sys2Proof

theorem decode_ldVxDt (x : Reg) : decode (packXNN 0xF x 0x07) = .ok (.ldVxDt x) := by simp [decode, decodeFamilyF]

theorem decode_ldDt (x : Reg) : decode (packXNN 0xF x 0x15) = .ok (.ldDt x) := by simp [decode, decodeFamilyF]

theorem decode_ldSt (x : Reg) : decode (packXNN 0xF x 0x18) = .ok (.ldSt x) := by simp [decode, decodeFamilyF]

end Sys2Proof

namespace Sys2Proof.Machine

theorem exec_ldVxDt (x : Reg) (s : State) : exec (.ldVxDt x) s = .next (s.writeV x s.dt) := rfl

theorem exec_ldDt (x : Reg) (s : State) : exec (.ldDt x) s = .next { s with dt := s.readV x } := rfl

theorem exec_ldSt (x : Reg) (s : State) : exec (.ldSt x) s = .next { s with st := s.readV x } := rfl

/-- Settles O42: the read is one `writeV` of DT as it stands, and each of the two writes replaces its timer alone. -/
theorem timerInstructionsMoveOneByte : Obligations.TimerInstructionsMoveOneByte := by
  refine fun x => ⟨decode_ldVxDt x, decode_ldDt x, decode_ldSt x, fun s => ⟨?_, exec_ldDt x s, exec_ldSt x s⟩⟩
  exact ⟨_, exec_ldVxDt x s, s.readV_writeV_self x s.dt, changesOnlyReg_writeV s x s.dt⟩

end Sys2Proof.Machine
end

section
/-! The unknown word and its diagnostic, and the timer tick (60_exceptions.md R205, R215, R226). -/

namespace Sys2Proof.Machine

theorem step_of_decode_error {s : State} {e : Reject} (hrun : s.status = .running) (hpc : s.pc.toNat ≤ 0xFFE)
    (hdec : decode (fetchWord s) = .error e) : step s = .next (advancePc s) := by
  obtain ⟨i, hi, _⟩ | ⟨_, _, hstep⟩ := step_running hrun ((guardFires_eq_false s).mpr hpc)
  · exact nomatch hdec.symm.trans hi
  · exact hstep

theorem fetches_of_running {s : State} (hrun : s.status = .running) (hpc : s.pc.toNat ≤ 0xFFE) : fetches s = true := by
  simp [fetches, hrun, (guardFires_eq_false s).mpr hpc]

theorem diagOf_of_decode_error {s : State} {e : Reject} (hfetch : fetches s = true)
    (hdec : decode (fetchWord s) = .error e) : diagOf s = some (fetchWord s, s.pc) := by
  simp only [diagOf, hfetch, hdec, if_true]

/-- Settles O8: the STEP ends in `advancePc s`, which differs from `s` in pc alone and so is still RUNNING. -/
theorem unknownWordOnlyAdvances : Obligations.UnknownWordOnlyAdvances := fun s _ hrun hpc hdec =>
  ⟨advancePc s, step_of_decode_error hrun hpc hdec, advancePc_pc s, rfl, hrun,
    diagOf_of_decode_error (fetches_of_running hrun hpc) hdec⟩

/-- The timer rule tests for zero; the spec's wording tests for a positive value. -/
theorem countDown_eq_ite_pos (t : Byte) : countDown t = if 0 < t.toNat then t - 1 else t := by
  by_cases h : t = 0
  · simp [countDown, h]
  · have hpos : 0 < t.toNat := Nat.pos_of_ne_zero fun hzero => h (BitVec.eq_of_toNat_eq hzero)
    rw [countDown, if_neg h, if_pos hpos]

/-- Settles O43: `tick` replaces each timer by `countDown` of it and no other field. -/
theorem tickDecrementsNonzeroTimers : Obligations.TickDecrementsNonzeroTimers := fun s =>
  ⟨tick s, rfl, countDown_eq_ite_pos s.dt, countDown_eq_ite_pos s.st, rfl⟩

end Sys2Proof.Machine
end

section
/-! The decoder read from the encoder's side: every encoded word decodes back (30_encoding.md R71, R77 to R83). -/

namespace Sys2Proof

theorem decode_ret : decode 0x00EE#16 = .ok .ret := by decide

theorem decode_jp (nnn : Addr12) : decode (packNNN 0x1 nnn) = .ok (.jp nnn) := by simp [decode]

theorem decode_call (nnn : Addr12) : decode (packNNN 0x2 nnn) = .ok (.call nnn) := by simp [decode]

theorem decode_jpV0 (nnn : Addr12) : decode (packNNN 0xB nnn) = .ok (.jpV0 nnn) := by simp [decode]

theorem decode_addReg (x y : Reg) : decode (packXYN 0x8 x y 0x4) = .ok (.addReg x y) := by simp [decode, decodeFamily8]

theorem decode_subReg (x y : Reg) : decode (packXYN 0x8 x y 0x5) = .ok (.subReg x y) := by simp [decode, decodeFamily8]

theorem decode_shr (x y : Reg) : decode (packXYN 0x8 x y 0x6) = .ok (.shr x y) := by simp [decode, decodeFamily8]

theorem decode_subnReg (x y : Reg) : decode (packXYN 0x8 x y 0x7) = .ok (.subnReg x y) := by
  simp [decode, decodeFamily8]

theorem decode_shl (x y : Reg) : decode (packXYN 0x8 x y 0xE) = .ok (.shl x y) := by simp [decode, decodeFamily8]

theorem decode_rnd (x : Reg) (nn : Byte) : decode (packXNN 0xC x nn) = .ok (.rnd x nn) := by simp [decode]

theorem decode_drw (x y : Reg) (n : RowCount) : decode (packXYN 0xD x y n) = .ok (.drw x y n) := by simp [decode]

theorem decode_skp (x : Reg) : decode (packXNN 0xE x 0x9E) = .ok (.skp x) := by simp [decode, decodeFamilyE]

theorem decode_sknp (x : Reg) : decode (packXNN 0xE x 0xA1) = .ok (.sknp x) := by simp [decode, decodeFamilyE]

theorem decode_ldKey (x : Reg) : decode (packXNN 0xF x 0x0A) = .ok (.ldKey x) := by simp [decode, decodeFamilyF]

theorem decode_addI (x : Reg) : decode (packXNN 0xF x 0x1E) = .ok (.addI x) := by simp [decode, decodeFamilyF]

theorem decode_ldBcd (x : Reg) : decode (packXNN 0xF x 0x33) = .ok (.ldBcd x) := by simp [decode, decodeFamilyF]

theorem decode_storeRegs (x : Reg) : decode (packXNN 0xF x 0x55) = .ok (.storeRegs x) := by
  simp [decode, decodeFamilyF]

theorem decode_loadRegs (x : Reg) : decode (packXNN 0xF x 0x65) = .ok (.loadRegs x) := by
  simp [decode, decodeFamilyF]

theorem decode_encode (i : Instr) : decode (encode i) = .ok i := by
  cases i with
  | cls => exact decode_cls
  | ret => exact decode_ret
  | jp nnn => exact decode_jp nnn
  | call nnn => exact decode_call nnn
  | seImm x nn => exact decode_seImm x nn
  | sneImm x nn => exact decode_sneImm x nn
  | seReg x y => exact decode_seReg x y
  | ldImm x nn => exact decode_ldImm x nn
  | addImm x nn => exact decode_addImm x nn
  | ldReg x y => exact decode_ldReg x y
  | orReg x y => exact decode_orReg x y
  | andReg x y => exact decode_andReg x y
  | xorReg x y => exact decode_xorReg x y
  | addReg x y => exact decode_addReg x y
  | subReg x y => exact decode_subReg x y
  | shr x y => exact decode_shr x y
  | subnReg x y => exact decode_subnReg x y
  | shl x y => exact decode_shl x y
  | sneReg x y => exact decode_sneReg x y
  | ldI nnn => exact decode_ldI nnn
  | jpV0 nnn => exact decode_jpV0 nnn
  | rnd x nn => exact decode_rnd x nn
  | drw x y n => exact decode_drw x y n
  | skp x => exact decode_skp x
  | sknp x => exact decode_sknp x
  | ldVxDt x => exact decode_ldVxDt x
  | ldKey x => exact decode_ldKey x
  | ldDt x => exact decode_ldDt x
  | ldSt x => exact decode_ldSt x
  | addI x => exact decode_addI x
  | ldFont x => exact decode_ldFont x
  | ldBcd x => exact decode_ldBcd x
  | storeRegs x => exact decode_storeRegs x
  | loadRegs x => exact decode_loadRegs x

theorem decodeBytes_of_decode_ok {w : Word} {i : Instr} (h : decode w = .ok i) (rest : List Byte) :
    decodeBytes (highByte w :: lowByte w :: rest) = .ok (i, rest) := by
  simp only [decodeBytes, wordOfBytes_bytes, h]

@[simp] theorem tableWord_toNat (w : Word) : tableWord 16 w.toNat = w := by
  rw [tableWord, Nat.mod_eq_of_lt w.isLt, BitVec.ofNat_toNat, BitVec.setWidth_eq]

theorem decodeTableWord_of_decode_ok {w : Word} {i : Instr} (h : decode w = .ok i) :
    decodeTableWord 16 w.toNat = some i := by
  rw [decodeTableWord, tableWord_toNat, decodeBytes_of_decode_ok h]

/-- Settles O1: the word decodes back, instruction by instruction, and the bytes and the table word are that word. -/
theorem encodedInstructionDecodesBack : Obligations.EncodedInstructionDecodesBack := fun i =>
  ⟨decode_encode i, decodeBytes_of_decode_ok (decode_encode i), decodeTableWord_of_decode_ok (decode_encode i)⟩

end Sys2Proof
end

section
/-! The decoder read from the word's side: a word whose selecting fields are given is the word that packs them, so every
decoded word is an encoded one, and the rows of the opcode table do not overlap (30_encoding.md R78 to R83). -/

namespace Sys2Proof

theorem packNNN_of_family {f : BitVec 4} {w : Word} (hf : familyField w = f) : packNNN f (nnnField w) = w :=
  hf ▸ packNNN_fields w

theorem packXNN_of_family {f : BitVec 4} {w : Word} (hf : familyField w = f) :
    packXNN f (xField w) (nnField w) = w :=
  hf ▸ packXNN_fields w

theorem packXNN_of_family_byte {f : BitVec 4} {nn : Byte} {w : Word} (hf : familyField w = f) (hn : nnField w = nn) :
    packXNN f (xField w) nn = w :=
  hn ▸ packXNN_of_family hf

theorem packXYN_of_family {f : BitVec 4} {w : Word} (hf : familyField w = f) :
    packXYN f (xField w) (yField w) (nField w) = w :=
  hf ▸ packXYN_fields w

theorem packXYN_of_family_nibble {f n : BitVec 4} {w : Word} (hf : familyField w = f) (hn : nField w = n) :
    packXYN f (xField w) (yField w) n = w :=
  hn ▸ packXYN_of_family hf

theorem familyField_and (w m : Word) : familyField (w &&& m) = familyField w &&& familyField m :=
  BitVec.extractLsb'_and

theorem nField_and (w m : Word) : nField (w &&& m) = nField w &&& nField m :=
  BitVec.extractLsb'_and

theorem nnField_and (w m : Word) : nnField (w &&& m) = nnField w &&& nnField m :=
  BitVec.extractLsb'_and

theorem OpcodeRow.covers_iff {r : OpcodeRow} {w : Word} : r.covers w = true ↔ w &&& r.mask = r.pattern :=
  beq_iff_eq

/-! A field the row's mask keeps whole is the pattern's field in every word the row covers. -/

theorem OpcodeRow.familyField_eq {r : OpcodeRow} {w : Word} (h : r.covers w = true)
    (hmask : familyField r.mask = BitVec.allOnes 4) : familyField w = familyField r.pattern := by
  rw [← covers_iff.mp h, familyField_and, hmask, BitVec.and_allOnes]

theorem OpcodeRow.nField_eq {r : OpcodeRow} {w : Word} (h : r.covers w = true)
    (hmask : nField r.mask = BitVec.allOnes 4) : nField w = nField r.pattern := by
  rw [← covers_iff.mp h, nField_and, hmask, BitVec.and_allOnes]

theorem OpcodeRow.nnField_eq {r : OpcodeRow} {w : Word} (h : r.covers w = true)
    (hmask : nnField r.mask = BitVec.allOnes 8) : nnField w = nnField r.pattern := by
  rw [← covers_iff.mp h, nnField_and, hmask, BitVec.and_allOnes]

theorem OpcodeRow.eq_of_full_mask {r : OpcodeRow} {w : Word} (h : r.covers w = true)
    (hmask : r.mask = BitVec.allOnes 16) : w = r.pattern := by
  rw [← covers_iff.mp h, hmask, BitVec.and_allOnes]

/-! So a covered word is the word that packs the row's pattern with the word's own operands. -/

theorem familyField_of_covers {f : BitVec 4} {w : Word} (h : OpcodeRow.covers ⟨0xF000, packNNN f 0⟩ w = true) :
    familyField w = f :=
  (OpcodeRow.familyField_eq h (by decide : familyField 0xF000#16 = _)).trans (familyField_packNNN f 0)

theorem packXYN_of_covers {f n : BitVec 4} {w : Word} (h : OpcodeRow.covers ⟨0xF00F, packXYN f 0 0 n⟩ w = true) :
    packXYN f (xField w) (yField w) n = w :=
  packXYN_of_family_nibble
    ((OpcodeRow.familyField_eq h (by decide : familyField 0xF00F#16 = _)).trans (familyField_packXYN f 0 0 n))
    ((OpcodeRow.nField_eq h (by decide : nField 0xF00F#16 = _)).trans (nField_packXYN f 0 0 n))

theorem packXNN_of_covers {f : BitVec 4} {nn : Byte} {w : Word}
    (h : OpcodeRow.covers ⟨0xF0FF, packXNN f 0 nn⟩ w = true) : packXNN f (xField w) nn = w :=
  packXNN_of_family_byte
    ((OpcodeRow.familyField_eq h (by decide : familyField 0xF0FF#16 = _)).trans (familyField_packXNN f 0 nn))
    ((OpcodeRow.nnField_eq h (by decide : nnField 0xF0FF#16 = _)).trans (nnField_packXNN f 0 nn))

/-- A word an instruction's row covers is the word of an instruction of that row. -/
theorem exists_encode_of_covers (i : Instr) {w : Word} (h : i.row.covers w = true) :
    ∃ j : Instr, encode j = w ∧ j.row = i.row := by
  cases i with
  | cls => exact ⟨.cls, (OpcodeRow.eq_of_full_mask h rfl).symm, rfl⟩
  | ret => exact ⟨.ret, (OpcodeRow.eq_of_full_mask h rfl).symm, rfl⟩
  | jp => exact ⟨.jp _, packNNN_of_family (familyField_of_covers (f := 0x1) h), rfl⟩
  | call => exact ⟨.call _, packNNN_of_family (familyField_of_covers (f := 0x2) h), rfl⟩
  | seImm => exact ⟨.seImm _ _, packXNN_of_family (familyField_of_covers (f := 0x3) h), rfl⟩
  | sneImm => exact ⟨.sneImm _ _, packXNN_of_family (familyField_of_covers (f := 0x4) h), rfl⟩
  | seReg => exact ⟨.seReg _ _, packXYN_of_covers (f := 0x5) (n := 0x0) h, rfl⟩
  | ldImm => exact ⟨.ldImm _ _, packXNN_of_family (familyField_of_covers (f := 0x6) h), rfl⟩
  | addImm => exact ⟨.addImm _ _, packXNN_of_family (familyField_of_covers (f := 0x7) h), rfl⟩
  | ldReg => exact ⟨.ldReg _ _, packXYN_of_covers (f := 0x8) (n := 0x0) h, rfl⟩
  | orReg => exact ⟨.orReg _ _, packXYN_of_covers (f := 0x8) (n := 0x1) h, rfl⟩
  | andReg => exact ⟨.andReg _ _, packXYN_of_covers (f := 0x8) (n := 0x2) h, rfl⟩
  | xorReg => exact ⟨.xorReg _ _, packXYN_of_covers (f := 0x8) (n := 0x3) h, rfl⟩
  | addReg => exact ⟨.addReg _ _, packXYN_of_covers (f := 0x8) (n := 0x4) h, rfl⟩
  | subReg => exact ⟨.subReg _ _, packXYN_of_covers (f := 0x8) (n := 0x5) h, rfl⟩
  | shr => exact ⟨.shr _ _, packXYN_of_covers (f := 0x8) (n := 0x6) h, rfl⟩
  | subnReg => exact ⟨.subnReg _ _, packXYN_of_covers (f := 0x8) (n := 0x7) h, rfl⟩
  | shl => exact ⟨.shl _ _, packXYN_of_covers (f := 0x8) (n := 0xE) h, rfl⟩
  | sneReg => exact ⟨.sneReg _ _, packXYN_of_covers (f := 0x9) (n := 0x0) h, rfl⟩
  | ldI => exact ⟨.ldI _, packNNN_of_family (familyField_of_covers (f := 0xA) h), rfl⟩
  | jpV0 => exact ⟨.jpV0 _, packNNN_of_family (familyField_of_covers (f := 0xB) h), rfl⟩
  | rnd => exact ⟨.rnd _ _, packXNN_of_family (familyField_of_covers (f := 0xC) h), rfl⟩
  | drw => exact ⟨.drw _ _ _, packXYN_of_family (familyField_of_covers (f := 0xD) h), rfl⟩
  | skp => exact ⟨.skp _, packXNN_of_covers (f := 0xE) (nn := 0x9E) h, rfl⟩
  | sknp => exact ⟨.sknp _, packXNN_of_covers (f := 0xE) (nn := 0xA1) h, rfl⟩
  | ldVxDt => exact ⟨.ldVxDt _, packXNN_of_covers (f := 0xF) (nn := 0x07) h, rfl⟩
  | ldKey => exact ⟨.ldKey _, packXNN_of_covers (f := 0xF) (nn := 0x0A) h, rfl⟩
  | ldDt => exact ⟨.ldDt _, packXNN_of_covers (f := 0xF) (nn := 0x15) h, rfl⟩
  | ldSt => exact ⟨.ldSt _, packXNN_of_covers (f := 0xF) (nn := 0x18) h, rfl⟩
  | addI => exact ⟨.addI _, packXNN_of_covers (f := 0xF) (nn := 0x1E) h, rfl⟩
  | ldFont => exact ⟨.ldFont _, packXNN_of_covers (f := 0xF) (nn := 0x29) h, rfl⟩
  | ldBcd => exact ⟨.ldBcd _, packXNN_of_covers (f := 0xF) (nn := 0x33) h, rfl⟩
  | storeRegs => exact ⟨.storeRegs _, packXNN_of_covers (f := 0xF) (nn := 0x55) h, rfl⟩
  | loadRegs => exact ⟨.loadRegs _, packXNN_of_covers (f := 0xF) (nn := 0x65) h, rfl⟩

theorem row_covers_encode (i : Instr) : i.row.covers (encode i) = true := by
  cases i with
  | cls => exact Laws.RowCovers.cls
  | ret => exact Laws.RowCovers.ret
  | jp nnn => exact Laws.RowCovers.jp nnn
  | call nnn => exact Laws.RowCovers.call nnn
  | seImm x nn => exact Laws.RowCovers.seImm x nn
  | sneImm x nn => exact Laws.RowCovers.sneImm x nn
  | seReg x y => exact Laws.RowCovers.seReg x y
  | ldImm x nn => exact Laws.RowCovers.ldImm x nn
  | addImm x nn => exact Laws.RowCovers.addImm x nn
  | ldReg x y => exact Laws.RowCovers.ldReg x y
  | orReg x y => exact Laws.RowCovers.orReg x y
  | andReg x y => exact Laws.RowCovers.andReg x y
  | xorReg x y => exact Laws.RowCovers.xorReg x y
  | addReg x y => exact Laws.RowCovers.addReg x y
  | subReg x y => exact Laws.RowCovers.subReg x y
  | shr x y => exact Laws.RowCovers.shr x y
  | subnReg x y => exact Laws.RowCovers.subnReg x y
  | shl x y => exact Laws.RowCovers.shl x y
  | sneReg x y => exact Laws.RowCovers.sneReg x y
  | ldI nnn => exact Laws.RowCovers.ldI nnn
  | jpV0 nnn => exact Laws.RowCovers.jpV0 nnn
  | rnd x nn => exact Laws.RowCovers.rnd x nn
  | drw x y n => exact Laws.RowCovers.drw x y n
  | skp x => exact Laws.RowCovers.skp x
  | sknp x => exact Laws.RowCovers.sknp x
  | ldVxDt x => exact Laws.RowCovers.ldVxDt x
  | ldKey x => exact Laws.RowCovers.ldKey x
  | ldDt x => exact Laws.RowCovers.ldDt x
  | ldSt x => exact Laws.RowCovers.ldSt x
  | addI x => exact Laws.RowCovers.addI x
  | ldFont x => exact Laws.RowCovers.ldFont x
  | ldBcd x => exact Laws.RowCovers.ldBcd x
  | storeRegs x => exact Laws.RowCovers.storeRegs x
  | loadRegs x => exact Laws.RowCovers.loadRegs x

end Sys2Proof
end

section
/-! The decoder against the encoder, the opcode table and the list of unknown words (30_encoding.md R80, R83). -/

namespace Sys2Proof

/-! What each second level of the decoder answers is the instruction whose word it was given. -/

theorem encode_of_decodeFamily0 {w : Word} {i : Instr} (h : decodeFamily0 w = .ok i) : encode i = w := by
  unfold decodeFamily0 at h
  split_ifs at h with hcls hret
  · cases h; exact hcls.symm
  · cases h; exact hret.symm

theorem encode_of_decodeFamily5 {w : Word} {i : Instr} (hf : familyField w = 0x5#4)
    (h : decodeFamily5 w = .ok i) : encode i = w := by
  unfold decodeFamily5 at h
  split_ifs at h with hn
  cases h
  exact packXYN_of_family_nibble hf hn

theorem encode_of_decodeFamily8 {w : Word} {i : Instr} (hf : familyField w = 0x8#4)
    (h : decodeFamily8 w = .ok i) : encode i = w := by
  unfold decodeFamily8 at h
  split at h <;> cases h <;> exact packXYN_of_family_nibble hf ‹nField w = _›

theorem encode_of_decodeFamily9 {w : Word} {i : Instr} (hf : familyField w = 0x9#4)
    (h : decodeFamily9 w = .ok i) : encode i = w := by
  unfold decodeFamily9 at h
  split_ifs at h with hn
  cases h
  exact packXYN_of_family_nibble hf hn

theorem encode_of_decodeFamilyE {w : Word} {i : Instr} (hf : familyField w = 0xE#4)
    (h : decodeFamilyE w = .ok i) : encode i = w := by
  unfold decodeFamilyE at h
  split at h <;> cases h <;> exact packXNN_of_family_byte hf ‹nnField w = _›

theorem encode_of_decodeFamilyF {w : Word} {i : Instr} (hf : familyField w = 0xF#4)
    (h : decodeFamilyF w = .ok i) : encode i = w := by
  unfold decodeFamilyF at h
  split at h <;> cases h <;> exact packXNN_of_family_byte hf ‹nnField w = _›

theorem encode_of_decode_ok {w : Word} {i : Instr} (h : decode w = .ok i) : encode i = w := by
  unfold decode at h
  split at h
  case h_1 => exact encode_of_decodeFamily0 h
  case h_2 hf => cases h; exact packNNN_of_family hf
  case h_3 hf => cases h; exact packNNN_of_family hf
  case h_4 hf => cases h; exact packXNN_of_family hf
  case h_5 hf => cases h; exact packXNN_of_family hf
  case h_6 hf => exact encode_of_decodeFamily5 hf h
  case h_7 hf => cases h; exact packXNN_of_family hf
  case h_8 hf => cases h; exact packXNN_of_family hf
  case h_9 hf => exact encode_of_decodeFamily8 hf h
  case h_10 hf => exact encode_of_decodeFamily9 hf h
  case h_11 hf => cases h; exact packNNN_of_family hf
  case h_12 hf => cases h; exact packNNN_of_family hf
  case h_13 hf => cases h; exact packXNN_of_family hf
  case h_14 hf => cases h; exact packXYN_of_family hf
  case h_15 hf => exact encode_of_decodeFamilyE hf h
  case h_16 =>
    have hf : familyField w = 0xF#4 := by simp only [imp_false] at *; bv_omega
    exact encode_of_decodeFamilyF hf h

/-- Settles O2, family by family: the fields that selected the row and the operands read are the whole word. -/
theorem decodedWordEncodesBack : Obligations.DecodedWordEncodesBack := fun _ _ h => encode_of_decode_ok h

theorem exists_row_of_mem_opcodeTable {r : OpcodeRow} (h : r ∈ opcodeTable) : ∃ i : Instr, i.row = r := by
  obtain ⟨i, -, hi⟩ := List.mem_map.mp h
  exact ⟨i, hi⟩

/-- A covered word decodes to an instruction of the row that covers it. -/
theorem decode_of_covers {r : OpcodeRow} (hr : r ∈ opcodeTable) {w : Word} (h : r.covers w = true) :
    ∃ j : Instr, decode w = .ok j ∧ j.row = r := by
  obtain ⟨i, rfl⟩ := exists_row_of_mem_opcodeTable hr
  obtain ⟨j, rfl, hrow⟩ := exists_encode_of_covers i h
  exact ⟨j, decode_encode j, hrow⟩

/-- Settles O3: the word of a decoded instruction is covered by its row, and any row that covers a word is the row of
what the word decodes to. -/
theorem decoderFollowsOpcodeTable : Obligations.DecoderFollowsOpcodeTable := by
  refine fun w => ⟨fun i hi => ⟨?_, fun r hr hcov => ?_⟩, fun e he => ?_⟩
  · exact encode_of_decode_ok hi ▸ row_covers_encode i
  · obtain ⟨j, hj, rfl⟩ := decode_of_covers hr hcov
    rw [Except.ok.inj (hi.symm.trans hj)]
  · rw [wellFormedWord, List.any_eq_false]
    intro r hr hcov
    obtain ⟨j, hj, -⟩ := decode_of_covers hr hcov
    exact nomatch he.symm.trans hj

/-! Which words each second level rejects: those whose selecting field is none of the listed ones (30_encoding.md
R80). -/

theorem decodeFamily0_error_iff (w : Word) :
    (∃ e, decodeFamily0 w = .error e) ↔ w ≠ 0x00E0#16 ∧ w ≠ 0x00EE#16 := by
  unfold decodeFamily0
  split_ifs <;> simp [*]

theorem decodeFamily5_error_iff (w : Word) : (∃ e, decodeFamily5 w = .error e) ↔ nField w ≠ 0 := by
  unfold decodeFamily5
  split_ifs <;> simp [*]

theorem decodeFamily8_error_iff (w : Word) :
    (∃ e, decodeFamily8 w = .error e) ↔ (nField w).toNat ∈ [0x8, 0x9, 0xA, 0xB, 0xC, 0xD, 0xF] := by
  unfold decodeFamily8
  split
  case h_10 =>
    simp only [imp_false] at *
    exact iff_of_true ⟨_, rfl⟩ (by simp only [List.mem_cons, List.not_mem_nil]; bv_omega)
  all_goals simp [*]

theorem decodeFamily9_error_iff (w : Word) : (∃ e, decodeFamily9 w = .error e) ↔ nField w ≠ 0 := by
  unfold decodeFamily9
  split_ifs <;> simp [*]

theorem decodeFamilyE_error_iff (w : Word) :
    (∃ e, decodeFamilyE w = .error e) ↔ (nnField w).toNat ∉ [0x9E, 0xA1] := by
  unfold decodeFamilyE
  split
  case h_3 =>
    simp only [imp_false] at *
    exact iff_of_true ⟨_, rfl⟩ (by simp only [List.mem_cons, List.not_mem_nil, or_false, not_or]; bv_omega)
  all_goals simp [*]

theorem decodeFamilyF_error_iff (w : Word) : (∃ e, decodeFamilyF w = .error e) ↔
    (nnField w).toNat ∉ [0x07, 0x0A, 0x15, 0x18, 0x1E, 0x29, 0x33, 0x55, 0x65] := by
  unfold decodeFamilyF
  split
  case h_10 =>
    simp only [imp_false] at *
    exact iff_of_true ⟨_, rfl⟩ (by simp only [List.mem_cons, List.not_mem_nil, or_false, not_or]; bv_omega)
  all_goals simp [*]

theorem familyField_eq_iff {w : Word} {f : BitVec 4} : familyField w = f ↔ w.toNat / 0x1000 = f.toNat := by
  rw [← familyField_toNat, BitVec.toNat_inj]

theorem decode_error_iff (w : Word) : (∃ e, decode w = .error e) ↔
    (w.toNat / 0x1000 = 0x0 ∧ ∃ e, decodeFamily0 w = .error e) ∨
    (w.toNat / 0x1000 = 0x5 ∧ ∃ e, decodeFamily5 w = .error e) ∨
    (w.toNat / 0x1000 = 0x8 ∧ ∃ e, decodeFamily8 w = .error e) ∨
    (w.toNat / 0x1000 = 0x9 ∧ ∃ e, decodeFamily9 w = .error e) ∨
    (w.toNat / 0x1000 = 0xE ∧ ∃ e, decodeFamilyE w = .error e) ∨
    (w.toNat / 0x1000 = 0xF ∧ ∃ e, decodeFamilyF w = .error e) := by
  unfold decode
  split
  case h_16 =>
    have hf : familyField w = 0xF#4 := by simp only [imp_false] at *; bv_omega
    simp [familyField_eq_iff.mp hf]
  all_goals simp [familyField_eq_iff.mp ‹familyField w = _›]

/-- Settles O4: a word is unknown where its family's second level rejects it, which is a fact about the word's low
nibble or low byte. -/
theorem unknownWordsExactly : Obligations.UnknownWordsExactly := by
  intro w
  have hnibble : nField w ≠ 0 ↔ w.toNat % 16 ≠ 0 := by
    rw [← nField_toNat, Ne, ← BitVec.toNat_inj]; rfl
  have hfamily0 : (w.toNat / 0x1000 = 0 ∧ w ≠ 0x00E0#16 ∧ w ≠ 0x00EE#16) ↔
      (w.toNat < 0x1000 ∧ w.toNat ≠ 0x00E0 ∧ w.toNat ≠ 0x00EE) := by bv_omega
  rw [decode_error_iff, decodeFamily0_error_iff, decodeFamily5_error_iff, decodeFamily8_error_iff,
    decodeFamily9_error_iff, decodeFamilyE_error_iff, decodeFamilyF_error_iff, nField_toNat, nnField_toNat,
    hnibble, hfamily0]

/-- Settles O5: twenty closed words, each read by the decoder. -/
theorem sampleWordsDecode : Obligations.SampleWordsDecode := by
  unfold Obligations.SampleWordsDecode
  decide

end Sys2Proof
end

section
/-! Every assembler line names its instruction (30_encoding.md R85, D27). -/

namespace Sys2Proof.Machine

theorem assemble_op_of_some {m : Mnemonic} {operands : List AsmOperand} {i : Instr}
    (h : assembleInstr m operands = some i) :
    assemble (.op m operands) = some [highByte (encode i), lowByte (encode i)] := by
  rw [assemble, h, Option.map_some]

theorem assemble_asmLine (i : Instr) (hshift : ∀ x y, i ≠ .shr x y ∧ i ≠ .shl x y) :
    assemble (asmLine i) = some [highByte (encode i), lowByte (encode i)] := by
  cases i with
  | shr x y => exact absurd rfl (hshift x y).1
  | shl x y => exact absurd rfl (hshift x y).2
  | _ => exact assemble_op_of_some rfl

/-- Settles O6: the line's mnemonic and operands name the instruction, for the two shifts the one with Y = 0. -/
theorem assemblyGivesEncodedBytes : Obligations.AssemblyGivesEncodedBytes :=
  ⟨assemble_asmLine, fun _ _ => ⟨assemble_op_of_some rfl, assemble_op_of_some rfl⟩⟩

end Sys2Proof.Machine
end

section
/-! The fatal entry as the statements describe it, and the jumps, the call and the return where they raise nothing or
end FATAL (41_control_flow.md R100 to R102, R107; 60_exceptions.md R204). -/

namespace Sys2Proof.Machine

theorem endsFatal_fatalEntry {op : Word} {e : Raise} {info : Nat} (s : State) (h : e.info.toNat = info) :
    EndsFatal s (fatalEntry op e s) op e.cause info :=
  ⟨rfl, rfl, rfl, rfl, rfl, h, rfl⟩

theorem exec_jp (nnn : Addr12) (s : State) : exec (.jp nnn) s = .next (s.jump (addrOperand nnn)) := rfl

theorem exec_jpV0 (nnn : Addr12) (s : State) :
    exec (.jpV0 nnn) s = .next (s.jump (addrOperand nnn + wideOperand (s.readV 0))) := rfl

@[simp] theorem wideOperand_toNat (b : Byte) : (wideOperand b).toNat = b.toNat :=
  BitVec.toNat_setWidth_of_le (by decide)

/-- The sum of a 12-bit address and a byte is exact in 16 bits. -/
theorem addrOperand_add_wideOperand_toNat (nnn : Addr12) (b : Byte) :
    (addrOperand nnn + wideOperand b).toNat = nnn.toNat + b.toNat := by
  have := nnn.isLt
  have := b.isLt
  rw [BitVec.toNat_add_of_lt (by rw [addrOperand_toNat, wideOperand_toNat]; omega), addrOperand_toNat,
    wideOperand_toNat]

/-- Settles O21: pc takes the widened address, and the guard's bound 0xFFE leaves one 12-bit address above it. -/
theorem jumpSetsPc : Obligations.JumpSetsPc := by
  refine fun nnn => ⟨decode_jp nnn, fun s => ⟨_, exec_jp nnn s, addrOperand_toNat nnn, rfl, ?_⟩⟩
  rw [guardFires_iff, State.jump_pc, addrOperand_toNat]
  bv_omega

/-- Settles O22: the 16-bit sum of the widened address and V[0] is exact. -/
theorem jumpWithOffsetAddsV0 : Obligations.JumpWithOffsetAddsV0 := fun nnn =>
  ⟨decode_jpV0 nnn, fun s => ⟨_, exec_jpV0 nnn s, addrOperand_add_wideOperand_toNat nnn _, rfl⟩⟩

/-- What an entry reads after a push: the pushed address where SP stood, every other entry as before. -/
theorem stackEntry_of_pushed {s t : State} {a : Word} (h : s.sp.toNat < 16)
    (ht : t.stack = s.stack.set s.sp.toNat a h) (k : Byte) :
    t.stackEntry k = if k = s.sp then some a else s.stackEntry k := by
  rw [State.stackEntry, ht, Vector.getElem?_set]
  by_cases hk : k = s.sp
  · rw [if_pos hk, if_pos (congrArg BitVec.toNat hk.symm)]
  · rw [if_neg hk, if_neg fun e => hk (BitVec.eq_of_toNat_eq e.symm), State.stackEntry]

theorem sp_add_one_toNat {s : State} (h : s.sp.toNat < 16) : (s.sp + 1).toNat = s.sp.toNat + 1 :=
  BitVec.toNat_add_of_lt (by change s.sp.toNat + 1 < 256; omega)

/-- Settles O24: with room the call is one push of pc and a jump. -/
theorem callPushesReturnAddress : Obligations.CallPushesReturnAddress := by
  refine fun nnn => ⟨decode_call nnn, fun s hroom => ⟨_, exec_call_of_room nnn hroom, addrOperand_toNat nnn,
    sp_add_one_toNat hroom, ?_, fun k hk => ?_, rfl⟩⟩
  · rw [stackEntry_of_pushed hroom rfl, if_pos rfl]
  · rw [stackEntry_of_pushed hroom rfl, if_neg hk]

theorem exec_ret_of_entry {s : State} {a : Word} (hne : s.sp ≠ 0#8) (hentry : s.stackEntry (s.sp - 1) = some a) :
    exec .ret s = .next { s with sp := s.sp - 1, pc := a } := by
  change execRet s = _
  rw [execRet, if_neg hne, State.pop, hentry]
  rfl

theorem exec_ret_of_outstanding {s : State} (hpos : 0 < s.sp.toNat) (hle : s.sp.toNat ≤ 16) :
    ∃ a, s.stackEntry (s.sp - 1) = some a ∧ exec .ret s = .next { s with sp := s.sp - 1, pc := a } := by
  obtain ⟨hzero, -⟩ | ⟨-, hnext⟩ | ⟨hgt, -⟩ := execRet_cases s
  · simp [hzero] at hpos
  · exact hnext
  · omega

/-- Settles O25: with a call outstanding the return reads the entry below SP and writes pc and SP alone. -/
theorem returnPopsAddress : Obligations.ReturnPopsAddress := by
  refine ⟨decode_ret, fun s hpos hle => ?_⟩
  obtain ⟨a, hentry, hnext⟩ := exec_ret_of_outstanding hpos hle
  exact ⟨_, hnext, by bv_omega, hentry, rfl⟩

theorem exec_call_of_illegal_sp (nnn : Addr12) {s : State} (h : 16 < s.sp.toNat) :
    exec (.call nnn) s = .fault .stackPointerIllegal := by
  obtain ⟨h16, -⟩ | ⟨hlt, -⟩ | ⟨-, hfault⟩ := execCall_cases nnn s
  · simp [h16] at h
  · omega
  · exact hfault

theorem exec_ret_of_illegal_sp {s : State} (h : 16 < s.sp.toNat) : exec .ret s = .fault .stackPointerIllegal := by
  obtain ⟨hzero, -⟩ | ⟨-, a, hentry, -⟩ | ⟨-, hfault⟩ := execRet_cases s
  · simp [hzero] at h
  · obtain ⟨hlt, -⟩ := Vector.getElem?_eq_some_iff.mp hentry
    bv_omega
  · exact hfault

/-- Settles O27: a full and an empty stack give the fatal entry, and an SP the spec excludes stops the model. -/
theorem stackErrorsEndFatal : Obligations.StackErrorsEndFatal :=
  ⟨fun nnn s hfull => ⟨_, exec_call_of_full nnn hfull, endsFatal_fatalEntry s rfl⟩,
    fun s hempty => ⟨_, exec_ret_of_empty hempty, endsFatal_fatalEntry s rfl⟩,
    fun nnn _ hsp => ⟨exec_call_of_illegal_sp nnn hsp, exec_ret_of_illegal_sp hsp⟩⟩

/-- Settles O28: the entry the return reads is the one the call pushed, since SP - 1 is where SP stood. -/
theorem returnUndoesCall : Obligations.ReturnUndoesCall := by
  intro nnn s t u hroom hcall hsp hstack
  obtain rfl := Host.Outcome.next.inj ((exec_call_of_room nnn hroom).symm.trans hcall)
  have hentries (k : Byte) : u.stackEntry k = if k = s.sp then some s.pc else s.stackEntry k :=
    stackEntry_of_pushed hroom hstack k
  have hcount : u.sp.toNat = s.sp.toNat + 1 := (congrArg BitVec.toNat hsp).trans (sp_add_one_toNat hroom)
  obtain ⟨a, hentry, hnext⟩ := exec_ret_of_outstanding (s := u) (by omega) (by omega)
  have hback : u.sp - 1 = s.sp := by rw [hsp]; exact BitVec.add_sub_cancel s.sp 1
  rw [hback, hentries, if_pos rfl] at hentry
  exact ⟨_, hnext, (Option.some.inj hentry).symm, hback, fun k hk => (hentries k).trans (if_neg hk), rfl⟩

end Sys2Proof.Machine
end

section
/-! The arithmetic instructions with a flag, the shifts and the random byte (42_register_alu.md R128 to R133). -/

namespace Sys2Proof.Machine

theorem exec_addReg (x y : Reg) (s : State) : exec (.addReg x y) s =
    .next (s.writeResultThenFlag x (s.readV x + s.readV y) (carryOut (s.readV x) (s.readV y))) := rfl

theorem exec_subReg (x y : Reg) (s : State) : exec (.subReg x y) s =
    .next (s.writeResultThenFlag x (s.readV x - s.readV y) (noBorrow (s.readV x) (s.readV y))) := rfl

theorem exec_subnReg (x y : Reg) (s : State) : exec (.subnReg x y) s =
    .next (s.writeResultThenFlag x (s.readV y - s.readV x) (noBorrow (s.readV y) (s.readV x))) := rfl

theorem exec_shr (x y : Reg) (s : State) : exec (.shr x y) s = .next (s.shiftRight x) := rfl

theorem exec_shl (x y : Reg) (s : State) : exec (.shl x y) s = .next (s.shiftLeft x) := rfl

theorem exec_rnd (x : Reg) (nn : Byte) (s : State) :
    exec (.rnd x nn) s = .next (s.drawn.maskRandom x nn (Config.randByte s.draws)) := rfl

theorem State.readV_writeFlag (s : State) (c : Bool) (r : Reg) :
    (s.writeFlag c).readV r = if r = flagReg then flagByte c else s.readV r :=
  s.readV_writeV flagReg r (flagByte c)

/-- The flag is written last, so it is what VF holds even where VF is the destination. -/
theorem State.readV_writeResultThenFlag (s : State) (x : Reg) (b : Byte) (c : Bool) (r : Reg) :
    (s.writeResultThenFlag x b c).readV r = if r = flagReg then flagByte c else if r = x then b else s.readV r := by
  rw [writeResultThenFlag, readV_writeFlag, readV_writeV]

theorem flagByte_decide (p : Prop) [Decidable p] : flagByte (decide p) = if p then 1 else 0 := by
  simp only [flagByte, decide_eq_true_eq]

/-- Settles O18: each of the three is the result's write followed by the flag's, from the operands as they were. -/
theorem arithmeticWritesResultThenFlag : Obligations.ArithmeticWritesResultThenFlag := by
  intro x y
  refine ⟨decode_append_of_packXYN (decode_addReg x y), decode_append_of_packXYN (decode_subReg x y),
    decode_append_of_packXYN (decode_subnReg x y), fun s => ⟨?_, ?_, ?_⟩⟩
  · refine ⟨_, exec_addReg x y s, rfl, fun r => ?_⟩
    rw [State.readV_writeResultThenFlag, carryOut, flagByte_decide]
  · refine ⟨_, exec_subReg x y s, rfl, fun r => ?_⟩
    rw [State.readV_writeResultThenFlag, noBorrow, flagByte_decide]
  · refine ⟨_, exec_subnReg x y s, rfl, fun r => ?_⟩
    rw [State.readV_writeResultThenFlag, noBorrow, flagByte_decide]

/-- An 8-bit difference is the exact difference modulo 256. -/
theorem byte_sub_toNat_int (a b : Byte) : ((a - b).toNat : Int) = ((a.toNat : Int) - b.toNat) % 256 := by
  have := b.isLt
  rw [BitVec.toNat_sub]
  omega

/-- Settles O17: the writes of O18 read at a destination that is not VF, as numbers. -/
theorem sumAndDifferenceLaws : Obligations.SumAndDifferenceLaws := by
  rintro x y s _ _ hx rfl rfl
  obtain ⟨-, -, -, hops⟩ := arithmeticWritesResultThenFlag x y
  obtain ⟨⟨t, hadd, -, ht⟩, ⟨u, hsub, -, hu⟩, w, hsubn, -, hw⟩ := hops s
  refine ⟨⟨t, hadd, ?_, (ht _).trans (if_pos rfl)⟩, ⟨u, hsub, ?_, (hu _).trans (if_pos rfl)⟩,
    w, hsubn, ?_, (hw _).trans (if_pos rfl)⟩
  · rw [ht, if_neg hx, if_pos rfl, BitVec.toNat_add]
  · rw [hu, if_neg hx, if_pos rfl, byte_sub_toNat_int]
  · rw [hw, if_neg hx, if_pos rfl, byte_sub_toNat_int]

/-! The two shifts write VF first and then shift what `V[x]` holds, which is the flag where `x` is VF. -/

theorem State.readV_shiftRight (s : State) (x r : Reg) : (s.shiftRight x).readV r =
    if r = x then (if x = flagReg then flagByte (lowBit (s.readV x)) else s.readV x) >>> 1
    else if r = flagReg then flagByte (lowBit (s.readV x)) else s.readV r := by
  simp only [shiftRight, readV_writeV, readV_writeFlag]

theorem State.readV_shiftLeft (s : State) (x r : Reg) : (s.shiftLeft x).readV r =
    if r = x then (if x = flagReg then flagByte (highBit (s.readV x)) else s.readV x) <<< 1
    else if r = flagReg then flagByte (highBit (s.readV x)) else s.readV r := by
  simp only [shiftLeft, readV_writeV, readV_writeFlag]

theorem flagByte_toNat (c : Bool) : (flagByte c).toNat = c.toNat := by cases c <;> rfl

theorem lowBit_toNat (b : Byte) : (lowBit b).toNat = b.toNat % 2 := by
  rw [lowBit, BitVec.getLsbD, Nat.testBit_zero]
  have := Nat.mod_two_eq_zero_or_one b.toNat
  rcases this with h | h <;> simp [h]

theorem highBit_toNat (b : Byte) : (highBit b).toNat = b.toNat / 128 := by
  have hmsb : highBit b = decide (128 ≤ b.toNat) := BitVec.msb_eq_decide b
  have := b.isLt
  rw [hmsb]
  by_cases h : 128 ≤ b.toNat
  · simp only [h, decide_true, Bool.toNat_true]; omega
  · simp only [h, decide_false, Bool.toNat_false]; omega

theorem flagByte_shiftRight (c : Bool) : flagByte c >>> 1 = 0 := by cases c <;> rfl

theorem flagByte_shiftLeft_toNat (c : Bool) : (flagByte c <<< 1).toNat = c.toNat * 2 := by cases c <;> rfl

/-- Settles O19: VF holds the captured bit, `V[X]` the shifted value, and with X = 0xF the shift is of the flag. -/
theorem shiftsCaptureBitThenShift : Obligations.ShiftsCaptureBitThenShift := by
  refine fun x y => ⟨decode_append_of_packXYN (decode_shr x y), decode_append_of_packXYN (decode_shl x y), ?_⟩
  rintro s _ rfl
  refine ⟨⟨_, exec_shr x y s, fun z => exec_shr x z s, rfl, fun r hx hf => ?_, ?_⟩,
    _, exec_shl x y s, fun z => exec_shl x z s, rfl, fun r hx hf => ?_, ?_⟩
  · rw [State.readV_shiftRight, if_neg hx, if_neg hf]
  · by_cases hx : x = 0xF#4
    · rw [if_pos hx, State.readV_shiftRight, if_pos hx.symm, if_pos hx, flagByte_shiftRight]
    · rw [if_neg hx, State.readV_shiftRight, State.readV_shiftRight, if_pos rfl, if_neg hx, if_neg (Ne.symm hx),
        if_pos rfl, flagByte_toNat, lowBit_toNat]
      exact ⟨by simp [Nat.shiftRight_eq_div_pow], rfl⟩
  · rw [State.readV_shiftLeft, if_neg hx, if_neg hf]
  · by_cases hx : x = 0xF#4
    · rw [if_pos hx, State.readV_shiftLeft, if_pos hx.symm, if_pos hx, flagByte_shiftLeft_toNat, highBit_toNat]
    · rw [if_neg hx, State.readV_shiftLeft, State.readV_shiftLeft, if_pos rfl, if_neg hx, if_neg (Ne.symm hx),
        if_pos rfl, flagByte_toNat, highBit_toNat]
      exact ⟨by simp [Nat.shiftLeft_eq], rfl⟩

/-- Settles O20: the drawn byte stays opaque, and the conjunction with the mask has no bit outside it. -/
theorem randomByteIsMasked : Obligations.RandomByteIsMasked := by
  refine fun x nn => ⟨decode_rnd x nn, fun s => ?_⟩
  have hread : (s.drawn.maskRandom x nn (Config.randByte s.draws)).readV x = Config.randByte s.draws &&& nn :=
    s.drawn.readV_writeV_self x _
  refine ⟨_, exec_rnd x nn s, hread, fun k hk => ?_, fun r hr => s.drawn.readV_writeV_of_ne _ hr, rfl, rfl⟩
  rw [hread, BitVec.getLsbD_and, hk, Bool.and_false]

end Sys2Proof.Machine
end

section
/-! The index add and the memory transfers: where the range is inside memory they move its bytes, where it is not they
end FATAL (43_index_memory.md R151, R153 to R156; 20_memory.md R66). -/

namespace Sys2Proof.Machine

theorem exec_addI (x : Reg) (s : State) : exec (.addI x) s = .next { s with i := s.i + wideOperand (s.readV x) } := rfl

/-- Settles O30: the sum is that of 16-bit words, and I is the one field written. -/
theorem indexAddWrapsAt16Bits : Obligations.IndexAddWrapsAt16Bits := by
  refine fun x => ⟨decode_addI x, fun s => ⟨_, exec_addI x s, ?_, rfl⟩⟩
  rw [BitVec.toNat_add, wideOperand_toNat]

theorem exec_ldBcd_of_fits (x : Reg) {s : State} (h : s.i.toNat + 3 ≤ 0x1000) : exec (.ldBcd x) s =
    .next { s with mem := Memory.place s.mem s.i.toNat (decimalDigits (s.readV x)) } := by
  obtain ⟨-, hnext⟩ | ⟨hgt, -⟩ := execLdBcd_cases x s
  · exact hnext
  · omega

theorem exec_ldBcd_of_overruns (x : Reg) {s : State} (h : 0x1000 < s.i.toNat + 3) :
    exec (.ldBcd x) s = .next (rangeFault (.ldBcd x) s) := by
  obtain ⟨hle, -⟩ | ⟨-, hfatal⟩ := execLdBcd_cases x s
  · omega
  · exact hfatal

theorem exec_storeRegs_of_fits (x : Reg) {s : State} (h : s.i.toNat + (x.toNat + 1) ≤ 0x1000) :
    exec (.storeRegs x) s = .next { s with mem := Memory.place s.mem s.i.toNat (s.readVs x) } := by
  obtain ⟨-, hnext⟩ | ⟨hgt, -⟩ := execStoreRegs_cases x s
  · exact hnext
  · omega

theorem exec_storeRegs_of_overruns (x : Reg) {s : State} (h : 0x1000 < s.i.toNat + (x.toNat + 1)) :
    exec (.storeRegs x) s = .next (rangeFault (.storeRegs x) s) := by
  obtain ⟨hle, -⟩ | ⟨-, hfatal⟩ := execStoreRegs_cases x s
  · omega
  · exact hfatal

theorem exec_loadRegs_of_fits (x : Reg) {s : State} (h : s.i.toNat + (x.toNat + 1) ≤ 0x1000) :
    exec (.loadRegs x) s = .next (s.writeVs 0 (bytesAtI s (x.toNat + 1))) := by
  obtain ⟨-, hnext⟩ | ⟨hgt, -⟩ := execLoadRegs_cases x s
  · exact hnext
  · omega

theorem exec_loadRegs_of_overruns (x : Reg) {s : State} (h : 0x1000 < s.i.toNat + (x.toNat + 1)) :
    exec (.loadRegs x) s = .next (rangeFault (.loadRegs x) s) := by
  obtain ⟨hle, -⟩ | ⟨-, hfatal⟩ := execLoadRegs_cases x s
  · omega
  · exact hfatal

theorem exec_drw_of_fits (x y : Reg) (n : RowCount) {s : State} (h : n.toNat = 0 ∨ s.i.toNat + n.toNat ≤ 0x1000) :
    exec (.drw x y n) s = .next (s.drawSprite (s.readV x) (s.readV y) (bytesAtI s n.toNat)) := by
  obtain ⟨-, hnext⟩ | ⟨hpos, hgt, -⟩ := execDrw_cases x y n s
  · exact hnext
  · omega

theorem exec_drw_of_overruns (x y : Reg) (n : RowCount) {s : State} (hpos : 0 < n.toNat)
    (h : 0x1000 < s.i.toNat + n.toNat) : exec (.drw x y n) s = .next (rangeFault (.drw x y n) s) := by
  obtain ⟨hle, -⟩ | ⟨-, -, hfatal⟩ := execDrw_cases x y n s
  · omega
  · exact hfatal

theorem endsFatal_rangeFault (i : Instr) (s : State) :
    EndsFatal s (rangeFault i s) (encode i) .memRange (max s.i.toNat 0x1000) :=
  endsFatal_fatalEntry s (outOfRange_toNat s.i)

/-- Settles O35: the whole range is checked before the first byte is moved, so the fatal entry is on the state as it
was. -/
theorem outOfRangeAccessEndsFatal : Obligations.OutOfRangeAccessEndsFatal := by
  refine fun x y n s => ⟨fun h => ?_, fun h => ?_, fun h => ?_, fun hpos h => ?_⟩
  · exact ⟨_, exec_ldBcd_of_overruns x (by omega), endsFatal_rangeFault (.ldBcd x) s⟩
  · exact ⟨_, exec_storeRegs_of_overruns x (by omega), endsFatal_rangeFault (.storeRegs x) s⟩
  · exact ⟨_, exec_loadRegs_of_overruns x (by omega), endsFatal_rangeFault (.loadRegs x) s⟩
  · rw [append_eq_packXYN]
    exact ⟨_, exec_drw_of_overruns x y n hpos (by omega), endsFatal_rangeFault (.drw x y n) s⟩

theorem byte_placed (s : State) {a : Nat} {bs : List Byte} (hwf : Memory.wf s.mem = true)
    (hfit : a + bs.length ≤ 0x1000) (q : Nat) : ({ s with mem := Memory.place s.mem a bs } : State).byte q =
      if a ≤ q ∧ q < a + bs.length then bs.getD (q - a) 0 else s.byte q :=
  Memory.read_place bs q hwf hfit

theorem byte_placed_inside (s : State) {a k : Nat} {bs : List Byte} (hwf : Memory.wf s.mem = true)
    (hfit : a + bs.length ≤ 0x1000) (hk : k < bs.length) :
    ({ s with mem := Memory.place s.mem a bs } : State).byte (a + k) = bs.getD k 0 := by
  rw [byte_placed s hwf hfit, if_pos ⟨by omega, by omega⟩, Nat.add_sub_cancel_left]

theorem byte_placed_outside (s : State) {a q : Nat} {bs : List Byte} (hwf : Memory.wf s.mem = true)
    (hfit : a + bs.length ≤ 0x1000) (hq : q < a ∨ a + bs.length ≤ q) :
    ({ s with mem := Memory.place s.mem a bs } : State).byte q = s.byte q := by
  rw [byte_placed s hwf hfit, if_neg (by omega)]

theorem decimalDigits_length (b : Byte) : (decimalDigits b).length = 3 := rfl

/-- Settles O31: the three digits, each below 256, are placed from I on. -/
theorem bcdStoresThreeDigits : Obligations.BcdStoresThreeDigits := by
  refine fun x => ⟨decode_ldBcd x, fun s hwf hrange => ?_⟩
  have hfit : s.i.toNat + (decimalDigits (s.readV x)).length ≤ 0x1000 := by rw [decimalDigits_length]; omega
  have hdigit (k : Nat) (hk : k < 3) := byte_placed_inside (k := k) s hwf hfit hk
  have hbyte := (s.readV x).isLt
  refine ⟨_, exec_ldBcd_of_fits x hfit, ?_, ?_, ?_, fun a ha => byte_placed_outside s hwf hfit ?_, rfl⟩
  · exact (congrArg BitVec.toNat (hdigit 0 (by omega))).trans (Nat.mod_eq_of_lt (by omega))
  · exact (congrArg BitVec.toNat (hdigit 1 (by omega))).trans (Nat.mod_eq_of_lt (by omega))
  · exact (congrArg BitVec.toNat (hdigit 2 (by omega))).trans (Nat.mod_eq_of_lt (by omega))
  · rw [decimalDigits_length]
    omega

theorem readVs_getD_toNat (s : State) {x r : Reg} (h : r.toNat ≤ x.toNat) :
    (s.readVs x).getD r.toNat 0 = s.readV r := by
  rw [s.readVs_getD x h, BitVec.ofNat_toNat, BitVec.setWidth_eq]

/-- Settles O32: the registers' values are placed from I on, one byte each. -/
theorem storeRegistersWritesRange : Obligations.StoreRegistersWritesRange := by
  refine fun x => ⟨decode_storeRegs x, fun s hwf hrange => ?_⟩
  have hlen := s.readVs_length x
  have hfit : s.i.toNat + (s.readVs x).length ≤ 0x1000 := by omega
  refine ⟨_, exec_storeRegs_of_fits x (by omega), fun r hr => ?_,
    fun a ha => byte_placed_outside s hwf hfit (by omega), rfl⟩
  rw [byte_placed_inside s hwf hfit (by omega), readVs_getD_toNat s hr]

theorem bytesAtI_getD (s : State) {k count : Nat} (h : k < count) :
    (bytesAtI s count).getD k 0 = s.byte (s.i.toNat + k) := by
  simp [bytesAtI, h]

/-- Settles O33: the bytes from I on are written to the run of registers from V[0] to V[X]. -/
theorem loadRegistersReadsRange : Obligations.LoadRegistersReadsRange := by
  refine fun x => ⟨decode_loadRegs x, fun s hrange => ?_⟩
  have hx := x.isLt
  refine ⟨_, exec_loadRegs_of_fits x (by omega), fun r => ?_, s.writeVs_frame 0 _⟩
  rw [s.readV_writeVs 0 _ r (by rw [bytesAtI_length]; omega), bytesAtI_length]
  by_cases hr : r.toNat ≤ x.toNat
  · rw [if_pos ⟨by omega, by omega⟩, if_pos hr, Nat.sub_zero, bytesAtI_getD s (by omega)]
  · rw [if_neg (by omega), if_neg hr]

/-- Settles O34: the load of O33 reads the bytes the store of O32 wrote, at the same addresses. -/
theorem storeLoadRoundTrip : Obligations.StoreLoadRoundTrip := by
  intro x s t u hwf hrange hstore hmem hi
  obtain ⟨t', hstore', hstored, -, hframe⟩ := (storeRegistersWritesRange x).2 s hwf hrange
  obtain rfl : t' = t := Host.Outcome.next.inj (hstore'.symm.trans hstore)
  have hsi : u.i = s.i := hi.trans (congrArg State.i hframe :)
  obtain ⟨w, hload, hread, hrest⟩ := (loadRegistersReadsRange x).2 u (by rw [hsi]; exact hrange)
  refine ⟨w, hload, fun r hr => ?_, fun r hr => ?_, hrest⟩
  · rw [hread, if_pos hr, State.byte, hmem, hsi]
    exact hstored r hr
  · rw [hread, if_neg (by omega)]

end Sys2Proof.Machine
end

section
/-! Drawing a sprite: the covered pixels flip, and VF reports whether one of them was lit (44_display.md R171). -/

namespace Sys2Proof.Machine

theorem rowsHit_mod (ox y : Nat) (bs : List Byte) (px py : Nat) :
    rowsHit ox y bs (px % 64) (py % 32) = rowsHit ox y bs px py := by
  rw [Bool.eq_iff_iff, rowsHit_iff, rowsHit_iff, Nat.mod_mod, Nat.mod_mod]

/-- `SpriteCovers` is what `rowsHit` computes from the sprite's bytes. -/
theorem spriteCovers_iff {s : State} {ox oy : Byte} {n px py : Nat} (hx : px < 64) (hy : py < 32) :
    SpriteCovers s ox oy n px py ↔ rowsHit ox.toNat oy.toNat (bytesAtI s n) px py = true := by
  rw [rowsHit_iff, bytesAtI_length, Nat.mod_eq_of_lt hx, Nat.mod_eq_of_lt hy]
  refine exists_congr fun row => exists_congr fun col => and_congr_right fun hrow => and_congr_right fun _ => ?_
  rw [bytesAtI_getD s hrow, spriteBit]
  tauto

theorem pixel_drawSprite (s : State) (ox oy : Byte) {rows : List Byte} (hlen : rows.length ≤ 32) (px py : Nat) :
    (s.drawSprite ox oy rows).disp.pixel px py = (s.disp.pixel px py ^^ rowsHit ox.toNat oy.toNat rows px py) :=
  (Canvas.drawRows_spec ⟨s.disp, false⟩ ox.toNat oy.toNat rows hlen).1 px py

theorem flagByte_eq_one_iff (c : Bool) : flagByte c = 1 ↔ c = true := by cases c <;> decide

theorem flagByte_eq_zero_or_one (c : Bool) : flagByte c = 0 ∨ flagByte c = 1 := by cases c <;> decide

theorem readV_drawSprite_flag (s : State) (ox oy : Byte) (rows : List Byte) :
    (s.drawSprite ox oy rows).readV flagReg =
      flagByte (Canvas.drawRows ⟨s.disp, false⟩ ox.toNat oy.toNat rows).hit :=
  State.readV_writeV_self _ _ _

theorem readV_drawSprite_of_ne (s : State) (ox oy : Byte) (rows : List Byte) {r : Reg} (hr : r ≠ flagReg) :
    (s.drawSprite ox oy rows).readV r = s.readV r :=
  State.readV_writeV_of_ne _ _ hr

/-- VF is set exactly where a covered pixel of the display was lit. -/
theorem drawSprite_flag_iff (s : State) (ox oy : Byte) {rows : List Byte} (hlen : rows.length ≤ 32) :
    (s.drawSprite ox oy rows).readV flagReg = 1 ↔ ∃ px py, px < 64 ∧ py < 32 ∧
      rowsHit ox.toNat oy.toNat rows px py = true ∧ s.disp.pixel px py = true := by
  rw [readV_drawSprite_flag, flagByte_eq_one_iff, (Canvas.drawRows_spec ⟨s.disp, false⟩ _ _ rows hlen).2]
  constructor
  · rintro (hfalse | ⟨px, py, hhit, hlit⟩)
    · exact nomatch hfalse
    · exact ⟨px % 64, py % 32, Nat.mod_lt _ (by decide), Nat.mod_lt _ (by decide), (rowsHit_mod ..).trans hhit,
        (Display.pixel_mod ..).trans hlit⟩
  · rintro ⟨px, py, -, -, hhit, hlit⟩
    exact .inr ⟨px, py, hhit, hlit⟩

theorem spriteRows_length_le (s : State) (n : RowCount) : (bytesAtI s n.toNat).length ≤ 32 := by
  have := n.isLt
  rw [bytesAtI_length]
  omega

/-- The statements' way to say that the sprite's bytes are inside memory. -/
theorem sprite_fits {n : RowCount} {i : Word} (h : n = 0 ∨ i.toNat + n.toNat - 1 ≤ 0xFFF) :
    n.toNat = 0 ∨ i.toNat + n.toNat ≤ 0x1000 := by
  rcases h with rfl | h
  · exact .inl rfl
  · omega

theorem bool_xor_ne_left_iff (a b : Bool) : (a ^^ b) ≠ a ↔ b = true := by cases a <;> cases b <;> decide

/-- Settles O37: the sprite's rows are the bytes at I, and the draw flips the pixels they cover. -/
theorem drawXorsSpriteAndReportsCollision : Obligations.DrawXorsSpriteAndReportsCollision := by
  refine fun x y n => ⟨decode_append_of_packXYN (decode_drw x y n), fun s hfits => ?_⟩
  have hlen := spriteRows_length_le s n
  refine ⟨_, exec_drw_of_fits x y n (sprite_fits hfits), fun px py hx hy => ?_, ?_, ?_,
    fun r hr => readV_drawSprite_of_ne s _ _ _ hr, rfl⟩
  · rw [pixel_drawSprite s _ _ hlen, bool_xor_ne_left_iff, spriteCovers_iff hx hy]
  · rw [readV_drawSprite_flag]
    exact flagByte_eq_zero_or_one _
  · refine (drawSprite_flag_iff s _ _ hlen).trans ?_
    refine exists_congr fun px => exists_congr fun py => and_congr_right fun hx => and_congr_right fun hy => ?_
    rw [spriteCovers_iff hx hy]

/-- A second draw has the origin and the sprite of the first where neither register is VF. -/
theorem exec_drw_drawSprite {x y : Reg} (hx : x ≠ flagReg) (hy : y ≠ flagReg) (n : RowCount) {s : State}
    (hfits : n.toNat = 0 ∨ s.i.toNat + n.toNat ≤ 0x1000) (ox oy : Byte) (rows : List Byte) :
    exec (.drw x y n) (s.drawSprite ox oy rows) =
      .next ((s.drawSprite ox oy rows).drawSprite (s.readV x) (s.readV y) (bytesAtI s n.toNat)) := by
  refine (exec_drw_of_fits (s := s.drawSprite ox oy rows) x y n hfits).trans ?_
  rw [readV_drawSprite_of_ne s _ _ _ hx, readV_drawSprite_of_ne s _ _ _ hy]
  rfl

/-- Settles O38: both draws cover the same pixels, and a pixel flipped twice is as it was. -/
theorem drawTwiceRestoresDisplay : Obligations.DrawTwiceRestoresDisplay := by
  intro x y n s hx hy hfits
  have hlen := spriteRows_length_le s n
  have hpixel := pixel_drawSprite s (s.readV x) (s.readV y) hlen
  have hsecond := exec_drw_drawSprite hx hy n (sprite_fits hfits) (s.readV x) (s.readV y) (bytesAtI s n.toNat)
  refine ⟨_, _, exec_drw_of_fits x y n (sprite_fits hfits), hsecond, Display.ext_pixel fun px py _ _ => ?_, ?_⟩
  · rw [pixel_drawSprite _ _ _ hlen, hpixel, Bool.xor_assoc, Bool.xor_self, Bool.xor_false]
  · refine (drawSprite_flag_iff _ _ _ hlen).trans ?_
    refine exists_congr fun px => exists_congr fun py => and_congr_right fun _ => and_congr_right fun _ => ?_
    rw [hpixel]
    cases s.disp.pixel px py <;> simp

end Sys2Proof.Machine
end

section
/-! The key tests and the key wait, with the collaborator's answers left open (45_keys_timers.md R180 to R182). -/

namespace Sys2Proof.Machine

theorem exec_skp_of_key (x : Reg) {s : State} {k : Key} (h : keyOperand (s.readV x) = .ok k) :
    exec (.skp x) s = .next (s.drawn.skipIf (Config.keyHeld s.draws k)) := by
  change execSkp x s = _
  rw [execSkp, h]
  rfl

theorem exec_sknp_of_key (x : Reg) {s : State} {k : Key} (h : keyOperand (s.readV x) = .ok k) :
    exec (.sknp x) s = .next (s.drawn.skipIf (!Config.keyHeld s.draws k)) := by
  change execSknp x s = _
  rw [execSknp, h]
  rfl

theorem keyOperand_of_toNat_eq {b : Byte} {k : Key} (h : b.toNat = k.toNat) : keyOperand b = .ok k := by
  have hk := k.isLt
  rw [keyOperand_ok (by omega)]
  exact congrArg Except.ok (BitVec.eq_of_toNat_eq (by rw [BitVec.toNat_setWidth, h, Nat.mod_eq_of_lt hk]))

/-- Settles O39: with a key code both tests are one draw and one `skipIf`, on the answer or on its negation. -/
theorem keySkipsFollowAnswer : Obligations.KeySkipsFollowAnswer := by
  refine fun x => ⟨decode_skp x, decode_sknp x, fun s k hk => ⟨?_, ?_⟩⟩
  · rw [exec_skp_of_key x (keyOperand_of_toNat_eq hk), State.skipIf_eq]
    rfl
  · rw [exec_sknp_of_key x (keyOperand_of_toNat_eq hk), State.skipIf_eq]
    cases Config.keyHeld s.draws k <;> rfl

theorem exec_skp_of_key_error (x : Reg) {s : State} {e : Raise} (h : keyOperand (s.readV x) = .error e) :
    exec (.skp x) s = .next (fatalEntry (encode (.skp x)) e s) := by
  change execSkp x s = _
  rw [execSkp, h]
  rfl

theorem exec_sknp_of_key_error (x : Reg) {s : State} {e : Raise} (h : keyOperand (s.readV x) = .error e) :
    exec (.sknp x) s = .next (fatalEntry (encode (.sknp x)) e s) := by
  change execSknp x s = _
  rw [execSknp, h]
  rfl

/-- Settles O40: the code is checked before the collaborator is queried, so the fatal entry is on the state as it
was. -/
theorem keyCodeOutOfRangeEndsFatal : Obligations.KeyCodeOutOfRangeEndsFatal := fun x s h =>
  ⟨⟨_, exec_skp_of_key_error x (keyOperand_error h), endsFatal_fatalEntry s (wideOperand_toNat _)⟩,
    _, exec_sknp_of_key_error x (keyOperand_error h), endsFatal_fatalEntry s (wideOperand_toNat _)⟩

theorem exec_ldKey (x : Reg) (s : State) : exec (.ldKey x) s =
    .next (s.drawn.keyWait x (heldKeys (Config.keyHeld s.draws)) (Config.keyChoice s.draws)) := rfl

theorem State.keyWait_of_none (s : State) (x : Reg) {held : List Key} {pick : Nat}
    (h : chooseKey held pick = none) : s.keyWait x held pick = { s with pc := s.pc - 2 } := by
  rw [keyWait, h]

theorem State.keyWait_of_some (s : State) (x : Reg) {held : List Key} {pick : Nat} {k : Key}
    (h : chooseKey held pick = some k) : s.keyWait x held pick = s.writeV x (k.setWidth 8) := by
  rw [keyWait, h]

theorem readV_keyWait_toNat (s : State) (x : Reg) {held : List Key} {pick : Nat} {k : Key}
    (h : chooseKey held pick = some k) : ((s.keyWait x held pick).readV x).toNat = k.toNat := by
  rw [s.keyWait_of_some x h, State.readV_writeV_self]
  exact BitVec.toNat_setWidth_of_le (by decide)

/-- Settles O41: the choice is none exactly where no key is held, and else one of the held codes, each by some
choice. -/
theorem keyWaitPollsOrLoadsHeldKey : Obligations.KeyWaitPollsOrLoadsHeldKey := by
  refine fun x => ⟨decode_ldKey x, fun s => ⟨_, exec_ldKey x s, rfl⟩, fun s held pick hnone => ?_,
    fun s held pick hsome => ?_, fun s held k hk => ?_⟩
  · obtain ⟨-, hchoice⟩ | ⟨k, hk, -⟩ := chooseKey_cases (heldKeys held) pick
    · exact s.keyWait_of_none x hchoice
    · exact absurd (mem_heldKeys.mp hk) (Bool.eq_false_iff.mp (hnone k))
  · obtain ⟨hempty, -⟩ | ⟨k, hk, hchoice⟩ := chooseKey_cases (heldKeys held) pick
    · obtain ⟨k, hk⟩ := hsome
      exact absurd (mem_heldKeys.mpr hk) (hempty ▸ List.not_mem_nil)
    · refine ⟨k, mem_heldKeys.mp hk, readV_keyWait_toNat s x hchoice, ?_⟩
      rw [s.keyWait_of_some x hchoice]
      exact changesOnlyReg_writeV s x _
  · obtain ⟨pick, hchoice⟩ := chooseKey_surjective (mem_heldKeys.mpr hk)
    exact ⟨pick, readV_keyWait_toNat s x hchoice⟩

end Sys2Proof.Machine
end

section
/-! The requests around the execute phase: schedules of one request, LOAD, the guard, the diagnostic, the codes
(60_exceptions.md R201 to R226; 70_reset_and_hazards.md R240 to R242). -/

namespace Sys2Proof.Machine

theorem serveAll_cons_of_next {r : Request} {s t : State} (h : serve r s = .next t) (rs : List Request) :
    serveAll (r :: rs) s = serveAll rs t := by
  rw [serveAll, h]

/-- Settles O11: each STEP answers the state it found, by induction on their number. -/
theorem stoppedCoreIgnoresSteps : Obligations.StoppedCoreIgnoresSteps := by
  intro s n hstopped
  induction n with
  | zero => rfl
  | succ n ih =>
    rw [List.replicate_succ, serveAll_cons_of_next (r := .step) (step_of_not_running hstopped)]
    exact ih

/-- Settles O44: each TICK subtracts one from each timer, stopping at zero, by induction on their number with the state
free. -/
theorem manyTicksCountDownToZero : Obligations.ManyTicksCountDownToZero := by
  intro n
  induction n with
  | zero => exact fun s => ⟨s, rfl, rfl, rfl, rfl⟩
  | succ n ih =>
    intro s
    obtain ⟨t, hrun, hdt, hst, hframe⟩ := ih (tick s)
    refine ⟨t, (serveAll_cons_of_next (r := .tick) rfl _).trans hrun, ?_, ?_, ?_⟩
    · rw [hdt, tick_dt, countDown_toNat]
      omega
    · rw [hst, tick_st, countDown_toNat]
      omega
    · exact congrArg (fun u : State => { u with dt := s.dt, st := s.st }) hframe

/-- Settles O10: the halt entry writes the record and nothing else. -/
theorem guardHaltsOutsideMemory : Obligations.GuardHaltsOutsideMemory := fun s hrun hpc =>
  ⟨haltEntry s, step_halting hrun ((guardFires_iff s).mpr hpc), rfl, rfl, rfl, rfl, rfl, rfl⟩

theorem fetches_iff (s : State) : fetches s = true ↔ s.status = .running ∧ s.pc.toNat ≤ 0xFFE := by
  simp only [fetches, Bool.and_eq_true, decide_eq_true_eq, Bool.not_eq_true', guardFires_eq_false]

/-- Settles O9: a diagnostic needs a fetch and a word the decoder rejects, which is one no row covers. -/
theorem diagnosticOnlyForUnknownWords : Obligations.DiagnosticOnlyForUnknownWords := by
  intro s hdiag
  have hfetch : fetches s = true := by
    by_contra hno
    exact hdiag (if_neg hno)
  obtain ⟨hrun, hpc⟩ := (fetches_iff s).mp hfetch
  cases hdec : decode (fetchWord s) with
  | ok i => exact absurd (by simp only [diagOf, hdec, ite_self]) hdiag
  | error e =>
    exact ⟨hrun, hpc, (decoderFollowsOpcodeTable (fetchWord s)).2 e hdec, step_of_decode_error hrun hpc hdec⟩

theorem load_of_fits {rom : List Byte} (s : State) (h : rom.length ≤ 3584) : load rom s =
    .next { State.reset with mem := Memory.place [] Config.progBase rom, draws := s.draws } := by
  rw [load, if_neg (Nat.not_lt.mpr h)]

theorem load_of_oversized {rom : List Byte} (s : State) (h : 3584 < rom.length) :
    load rom s = .refused .romTooLong := by
  rw [load, if_pos h]

/-- Settles O46: the image is placed in the empty memory of the reset state. -/
theorem loadGivesFreshState : Obligations.LoadGivesFreshState := by
  intro rom s hlen
  have hfit : 0x200 + rom.length ≤ 0x1000 := by omega
  exact ⟨_, load_of_fits s hlen, Memory.wf_place rom rfl hfit, fun a => Memory.read_place rom a rfl hfit, rfl, rfl⟩

/-- Settles O47: a schedule goes on past the refusal by name. -/
theorem oversizedRomIsRefused : Obligations.OversizedRomIsRefused := by
  refine fun rom s rest hlen => ⟨load_of_oversized s hlen, ?_⟩
  have hserve : serve (.load rom) s = .refused .romTooLong := load_of_oversized s hlen
  simp only [serveAll, hserve, if_true]

theorem readV_reset (r : Reg) : State.reset.readV r = 0 := Vector.getElem_replicate _

theorem stackEntry_reset {k : Byte} (h : k.toNat < 16) : State.reset.stackEntry k = some 0 :=
  (Vector.getElem?_eq_getElem h).trans (congrArg some (Vector.getElem_replicate h))

/-- Settles O45: the fields of the reset state, the three tables of it by what a read of them answers. -/
theorem resetStateValues : Obligations.ResetStateValues :=
  ⟨readV_reset, rfl, rfl, rfl, fun _ => stackEntry_reset, rfl, rfl, fun _ => rfl, Display.pixel_blank, rfl, rfl, rfl,
    rfl, rfl⟩

/-- Settles O48: the codes are the two tables' values. -/
theorem resultCodes : Obligations.ResultCodes := ⟨rfl, rfl, rfl, rfl, rfl, rfl, rfl, rfl, rfl⟩

end Sys2Proof.Machine
end

section
/-! What the next fetch reads after a word was placed, by the model's own tool or by a store (20_memory.md
section 5). -/

namespace Sys2Proof.Machine

/-- The two bytes of a word placed at pc are what the fetch combines. -/
theorem fetchWord_placeWord {s : State} (w : Word) (hwf : Memory.wf s.mem = true) (hpc : s.pc.toNat ≤ 0xFFE) :
    fetchWord (placeWord s w) = w := by
  have hfirst := Memory.wf_write (highByte w) hwf (show s.pc.toNat < 0x1000 by omega)
  have hhigh : (placeWord s w).byte s.pc.toNat = highByte w := by
    rw [State.byte, placeWord, Memory.read_write _ _ _ hfirst, if_neg (by omega), Memory.read_write _ _ _ hwf,
      if_pos rfl]
  have hlow : (placeWord s w).byte (s.pc.toNat + 1) = lowByte w := by
    rw [State.byte, placeWord, Memory.read_write _ _ _ hfirst, if_pos rfl]
  rw [fetchWord, placeWord_pc, hhigh, hlow, wordOfBytes_bytes]

theorem byte_placeWord_of_ne {s : State} (w : Word) (hwf : Memory.wf s.mem = true) (hpc : s.pc.toNat ≤ 0xFFE)
    {a : Nat} (h0 : a ≠ s.pc.toNat) (h1 : a ≠ s.pc.toNat + 1) : (placeWord s w).byte a = s.byte a := by
  have hfirst := Memory.wf_write (highByte w) hwf (show s.pc.toNat < 0x1000 by omega)
  rw [State.byte, placeWord, Memory.read_write _ _ _ hfirst, if_neg h1, Memory.read_write _ _ _ hwf, if_neg h0,
    State.byte]

theorem readyToFetch_of_fetches {s : State} (hrun : s.status = .running) (hpc : s.pc.toNat ≤ 0xFFE) :
    readyToFetch s = s := by
  simp only [readyToFetch, hrun, if_true, (guardFires_eq_false s).mpr hpc, Bool.false_eq_true, if_false]

/-- Moving pc to 0x200 where the guard would fire leaves a running core that fetches, its memory as it was. -/
theorem fetches_of_guardFires_ite {t : State} (hrun : t.status = .running) (u : State)
    (hu : u = if guardFires t then { t with pc := 0x0200 } else t) :
    u.status = .running ∧ u.pc.toNat ≤ 0xFFE ∧ u.mem = t.mem := by
  subst hu
  by_cases hguard : guardFires t = true
  · rw [if_pos hguard]
    exact ⟨hrun, (by decide : (0x0200 : Word).toNat ≤ 0xFFE), rfl⟩
  · rw [if_neg hguard]
    exact ⟨hrun, (guardFires_eq_false t).mp (Bool.eq_false_iff.mpr hguard), rfl⟩

theorem readyToFetch_spec (s : State) :
    (readyToFetch s).status = .running ∧ (readyToFetch s).pc.toNat ≤ 0xFFE ∧ (readyToFetch s).mem = s.mem := by
  by_cases hrun : s.status = .running
  · exact fetches_of_guardFires_ite hrun _ (by rw [readyToFetch, if_pos hrun])
  · exact fetches_of_guardFires_ite
      (t := { s with status := .running, cause := .noCause, faultPc := 0, faultOp := 0, faultInfo := 0 }) rfl _
      (by rw [readyToFetch, if_neg hrun])

/-- Settles O12: the readied core fetches, the word it fetches is the placed one, and that decodes back. -/
theorem placedWordRunsNext : Obligations.PlacedWordRunsNext := by
  intro s i hwf
  have hplaced : s.withFetchWord 16 (encode i).toNat = placeWord (readyToFetch s) (encode i) := by
    rw [State.withFetchWord, tableWord_toNat]
  obtain ⟨hready, hinside, hmem⟩ := readyToFetch_spec s
  rw [hplaced]
  refine ⟨?_, fun hrun hpc => ⟨fun a h0 h1 => ?_, ?_⟩⟩
  · have hfetch := fetchWord_placeWord (encode i) (hmem.symm ▸ hwf) hinside
    exact step_of_decode_ok hready hinside (hfetch.symm ▸ decode_encode i)
  · rw [readyToFetch_of_fetches hrun hpc, byte_placeWord_of_ne _ hwf hpc h0 h1]
  · rw [readyToFetch_of_fetches hrun hpc]
    rfl

/-- Settles O13: the store puts V[0] and V[1] at pc and pc + 1, which the fetch combines into `op`. -/
theorem storeSeenByNextFetch : Obligations.StoreSeenByNextFetch := by
  intro s x op i hwf hrun hx hi hrange hop hdec
  obtain ⟨t, hstore, hstored, -, hframe⟩ := (storeRegistersWritesRange x).2 s hwf hrange
  have hpc : t.pc = s.pc := (congrArg State.pc hframe :)
  have hstatus : t.status = .running := (congrArg State.status hframe :).trans hrun
  have hhigh := hstored 0 (Nat.zero_le _)
  have hlow := hstored 1 hx
  rw [hi, ← hpc] at hhigh hlow
  have hfetch : fetchWord t = op := BitVec.eq_of_toNat_eq <| by
    rw [fetchWord_toNat, hop, ← hhigh, ← hlow]
    rfl
  refine ⟨t, hstore, step_of_decode_ok hstatus ?_ (hfetch.symm ▸ hdec)⟩
  rw [hpc, ← hi]
  omega

end Sys2Proof.Machine
end

section
/-! What one execute phase can do, said once for all instructions: it takes effect inside what the spec lets the
instruction write, or it ends in the fatal entry with a cause the instruction may raise, or SP is outside its range
(10_state.md R20 to R34; 60_exceptions.md R201, R204). -/

namespace Sys2Proof.Machine

/-- From `s` to `t` everything an instruction is not named as a writer of is as it was, and a draw is counted where it
takes one. A field's default says that the update did not touch it. -/
structure Frame (i : Instr) (s t : State) : Prop where
  reg : ∀ r, writesReg i r = false → t.readV r = s.readV r := by exact fun _ _ => rfl
  index : writesIndex i = false → t.i = s.i := by exact fun _ => rfl
  stack : movesStack i = false → t.sp = s.sp ∧ t.stack = s.stack := by exact fun _ => ⟨rfl, rfl⟩
  dt : (∀ x, i ≠ .ldDt x) → t.dt = s.dt := by exact fun _ => rfl
  st : (∀ x, i ≠ .ldSt x) → t.st = s.st := by exact fun _ => rfl
  mem : writesMemory i = false → t.mem = s.mem := by exact fun _ => rfl
  disp : drawsOrClears i = false → t.disp = s.disp := by exact fun _ => rfl
  draws : t.draws = s.draws + if takesDraw s i then 1 else 0 := by exact rfl

/-- An instruction that raised nothing led from `s` to `t`: pc is where the fetch left it unless the instruction sets
it, and the record of errors is unchanged. -/
structure Effect (i : Instr) (s t : State) : Prop extends Frame i s t where
  pc : setsPc i = false → t.pc = s.pc := by exact fun _ => rfl
  record : stepResult t = stepResult s := by exact rfl

/-- The error is one the spec lets the instruction raise, and it was raised before a collaborator was queried. -/
structure Raises (i : Instr) (s : State) (e : Raise) : Prop where
  cause : mayRaise i e.cause = true
  info : infoFits e.cause e.info = true
  noDraw : takesDraw s i = false

/-- The three ways an execute phase ends. -/
inductive Ends (i : Instr) (s : State) : Result → Prop where
  | effect {t : State} (h : Effect i s t) : Ends i s (.next t)
  | raise {e : Raise} (h : Raises i s e) : Ends i s (.next (fatalEntry (encode i) e s))
  | stop (hstack : movesStack i = true) (hsp : 16 < s.sp.toNat) : Ends i s (.fault .stackPointerIllegal)

/-- A write of a register the instruction may write leaves every register it may not write. -/
theorem readV_writeV_of_unnamed (s : State) {i : Instr} {x : Reg} (b : Byte) (hx : writesReg i x = true) (r : Reg)
    (hr : writesReg i r = false) : (s.writeV x b).readV r = s.readV r :=
  s.readV_writeV_of_ne b fun h => Bool.eq_false_iff.mp hr (h ▸ hx)

theorem Effect.writeV {i : Instr} {s : State} {x : Reg} (b : Byte) (hx : writesReg i x = true)
    (hdraw : takesDraw s i = false) : Effect i s (s.writeV x b) where
  reg := readV_writeV_of_unnamed s b hx
  draws := by rw [hdraw]; rfl

theorem Effect.writeV_writeV {i : Instr} {s : State} {x y : Reg} (b c : Byte) (hx : writesReg i x = true)
    (hy : writesReg i y = true) (hdraw : takesDraw s i = false) : Effect i s ((s.writeV x b).writeV y c) where
  reg r hr := (readV_writeV_of_unnamed _ c hy r hr).trans (readV_writeV_of_unnamed s b hx r hr)
  draws := by rw [hdraw]; rfl

theorem Effect.jump {i : Instr} {s : State} (a : Word) (hpc : setsPc i = true) (hdraw : takesDraw s i = false) :
    Effect i s (s.jump a) where
  pc h := absurd hpc (Bool.eq_false_iff.mp h)
  draws := by rw [hdraw]; rfl

theorem State.skipIf_eq_jump (s : State) (c : Bool) : s.skipIf c = s.jump (if c then s.pc + 2 else s.pc) :=
  s.skipIf_eq c

theorem Effect.skipIf {i : Instr} {s : State} (c : Bool) (hpc : setsPc i = true) (hdraw : takesDraw s i = false) :
    Effect i s (s.skipIf c) := by
  rw [State.skipIf_eq_jump]
  exact .jump _ hpc hdraw

/-- A key test counts one draw and may skip. -/
theorem Effect.drawn_skipIf {i : Instr} {s : State} (c : Bool) (hpc : setsPc i = true) (hdraw : takesDraw s i = true) :
    Effect i s (s.drawn.skipIf c) := by
  rw [State.skipIf_eq_jump]
  exact { pc := fun h => absurd hpc (Bool.eq_false_iff.mp h), draws := (by rw [hdraw]; rfl) }

/-- Placing bytes writes memory alone. -/
theorem Effect.place {i : Instr} {s : State} (a : Nat) (bs : List Byte) (hmem : writesMemory i = true)
    (hdraw : takesDraw s i = false) : Effect i s { s with mem := Memory.place s.mem a bs } where
  mem h := absurd hmem (Bool.eq_false_iff.mp h)
  draws := by rw [hdraw]; rfl

theorem Effect.drawSprite {s : State} (x y : Reg) (n : RowCount) (ox oy : Byte) (rows : List Byte) :
    Effect (.drw x y n) s (s.drawSprite ox oy rows) where
  reg r hr := readV_drawSprite_of_ne s ox oy rows (beq_eq_false_iff_ne.mp hr)
  disp := nofun

/-- The key wait writes its register or goes back to its word, and counts one draw either way. -/
theorem Effect.keyWait {s : State} (x : Reg) (held : List Key) (pick : Nat) :
    Effect (.ldKey x) s (s.drawn.keyWait x held pick) := by
  cases hchoice : chooseKey held pick with
  | none =>
    rw [State.keyWait_of_none _ x hchoice]
    exact { pc := nofun }
  | some k =>
    rw [State.keyWait_of_some _ x hchoice]
    exact { reg := readV_writeV_of_unnamed s.drawn _ (beq_self_eq_true x) }

/-- Loading a run of registers writes the registers up to `V[x]`. -/
theorem Effect.loadRegs {s : State} (x : Reg) :
    Effect (.loadRegs x) s (s.writeVs 0 (bytesAtI s (x.toNat + 1))) := by
  have hx := x.isLt
  have hframe := s.writeVs_frame 0 (bytesAtI s (x.toNat + 1))
  exact {
    reg := fun r hr => by
      rw [s.readV_writeVs 0 _ r (by rw [bytesAtI_length]; omega), bytesAtI_length, if_neg]
      have := of_decide_eq_false hr
      omega
    index := fun _ => (congrArg State.i hframe :)
    pc := fun _ => (congrArg State.pc hframe :)
    stack := fun _ => ⟨(congrArg State.sp hframe :), (congrArg State.stack hframe :)⟩
    dt := fun _ => (congrArg State.dt hframe :)
    st := fun _ => (congrArg State.st hframe :)
    mem := fun _ => (congrArg State.mem hframe :)
    disp := fun _ => (congrArg State.disp hframe :)
    record := (congrArg stepResult hframe :)
    draws := (congrArg State.draws hframe :) }

/-- The lowest address out of range is a FAULT_INFO of MEM_RANGE (20_memory.md R66). -/
theorem Ends.rangeFault {i : Instr} {s : State} (hmay : mayRaise i .memRange = true) (hdraw : takesDraw s i = false) :
    Ends i s (.next (rangeFault i s)) :=
  .raise ⟨hmay, decide_eq_true (by rw [outOfRange_toNat]; omega), hdraw⟩

/-- A byte above 0xF is a FAULT_INFO of KEY_RANGE (45_keys_timers.md R180). -/
theorem infoFits_keyRange {b : Byte} (h : 0xF < b.toNat) : infoFits .keyRange (wideOperand b) = true := by
  have := b.isLt
  simp only [infoFits, wideOperand_toNat, Bool.and_eq_true, decide_eq_true_eq]
  omega

theorem execRet_ends (s : State) : Ends .ret s (execRet s) := by
  obtain ⟨-, h⟩ | ⟨-, a, -, h⟩ | ⟨hsp, h⟩ := execRet_cases s
  · exact h ▸ .raise ⟨rfl, rfl, rfl⟩
  · exact h ▸ .effect { pc := nofun, stack := nofun }
  · exact h ▸ .stop rfl hsp

theorem execCall_ends (nnn : Addr12) (s : State) : Ends (.call nnn) s (execCall nnn s) := by
  obtain ⟨-, h⟩ | ⟨_, h⟩ | ⟨hsp, h⟩ := execCall_cases nnn s
  · exact h ▸ .raise ⟨rfl, rfl, rfl⟩
  · exact h ▸ .effect { pc := nofun, stack := nofun }
  · exact h ▸ .stop rfl hsp

theorem execDrw_ends (x y : Reg) (n : RowCount) (s : State) : Ends (.drw x y n) s (execDrw x y n s) := by
  obtain ⟨-, h⟩ | ⟨-, -, h⟩ := execDrw_cases x y n s
  · exact h ▸ .effect (.drawSprite x y n _ _ _)
  · exact h ▸ .rangeFault rfl rfl

theorem execSkp_ends (x : Reg) (s : State) : Ends (.skp x) s (execSkp x s) := by
  obtain ⟨hle, c, h⟩ | ⟨hgt, h⟩ := execSkp_cases x s
  · exact h ▸ .effect (.drawn_skipIf c rfl (decide_eq_true hle))
  · exact h ▸ .raise ⟨rfl, infoFits_keyRange hgt, decide_eq_false (by omega)⟩

theorem execSknp_ends (x : Reg) (s : State) : Ends (.sknp x) s (execSknp x s) := by
  obtain ⟨hle, c, h⟩ | ⟨hgt, h⟩ := execSknp_cases x s
  · exact h ▸ .effect (.drawn_skipIf c rfl (decide_eq_true hle))
  · exact h ▸ .raise ⟨rfl, infoFits_keyRange hgt, decide_eq_false (by omega)⟩

theorem execLdBcd_ends (x : Reg) (s : State) : Ends (.ldBcd x) s (execLdBcd x s) := by
  obtain ⟨-, h⟩ | ⟨-, h⟩ := execLdBcd_cases x s
  · exact h ▸ .effect (.place _ _ rfl rfl)
  · exact h ▸ .rangeFault rfl rfl

theorem execStoreRegs_ends (x : Reg) (s : State) : Ends (.storeRegs x) s (execStoreRegs x s) := by
  obtain ⟨-, h⟩ | ⟨-, h⟩ := execStoreRegs_cases x s
  · exact h ▸ .effect (.place _ _ rfl rfl)
  · exact h ▸ .rangeFault rfl rfl

theorem execLoadRegs_ends (x : Reg) (s : State) : Ends (.loadRegs x) s (execLoadRegs x s) := by
  obtain ⟨-, h⟩ | ⟨-, h⟩ := execLoadRegs_cases x s
  · exact h ▸ .effect (.loadRegs x)
  · exact h ▸ .rangeFault rfl rfl

theorem exec_ends (i : Instr) (s : State) : Ends i s (exec i s) := by
  cases i with
  | cls => exact .effect { disp := nofun }
  | ret => exact execRet_ends s
  | jp nnn => exact .effect (.jump _ rfl rfl)
  | call nnn => exact execCall_ends nnn s
  | seImm x nn => exact .effect (.skipIf _ rfl rfl)
  | sneImm x nn => exact .effect (.skipIf _ rfl rfl)
  | seReg x y => exact .effect (.skipIf _ rfl rfl)
  | ldImm x nn => exact .effect (.writeV _ (beq_self_eq_true x) rfl)
  | addImm x nn => exact .effect (.writeV _ (beq_self_eq_true x) rfl)
  | ldReg x y => exact .effect (.writeV _ (beq_self_eq_true x) rfl)
  | orReg x y => exact .effect (.writeV _ (beq_self_eq_true x) rfl)
  | andReg x y => exact .effect (.writeV _ (beq_self_eq_true x) rfl)
  | xorReg x y => exact .effect (.writeV _ (beq_self_eq_true x) rfl)
  | addReg x y => exact .effect (.writeV_writeV _ _ (by simp [writesReg]) (by simp [writesReg]) rfl)
  | subReg x y => exact .effect (.writeV_writeV _ _ (by simp [writesReg]) (by simp [writesReg]) rfl)
  | shr x y => exact .effect (.writeV_writeV _ _ (by simp [writesReg]) (by simp [writesReg]) rfl)
  | subnReg x y => exact .effect (.writeV_writeV _ _ (by simp [writesReg]) (by simp [writesReg]) rfl)
  | shl x y => exact .effect (.writeV_writeV _ _ (by simp [writesReg]) (by simp [writesReg]) rfl)
  | sneReg x y => exact .effect (.skipIf _ rfl rfl)
  | ldI nnn => exact .effect { index := nofun }
  | jpV0 nnn => exact .effect (.jump _ rfl rfl)
  | rnd x nn => exact .effect { reg := readV_writeV_of_unnamed s.drawn _ (beq_self_eq_true x) }
  | drw x y n => exact execDrw_ends x y n s
  | skp x => exact execSkp_ends x s
  | sknp x => exact execSknp_ends x s
  | ldVxDt x => exact .effect (.writeV _ (beq_self_eq_true x) rfl)
  | ldKey x => exact .effect (.keyWait x _ _)
  | ldDt x => exact .effect { dt := fun h => absurd rfl (h x) }
  | ldSt x => exact .effect { st := fun h => absurd rfl (h x) }
  | addI x => exact .effect { index := nofun }
  | ldFont x => exact .effect { index := nofun }
  | ldBcd x => exact execLdBcd_ends x s
  | storeRegs x => exact execStoreRegs_ends x s
  | loadRegs x => exact execLoadRegs_ends x s

end Sys2Proof.Machine
end

section
/-! Who writes what, who raises what, and that a fatal STEP is precise, read off the ways an execute phase ends. -/

namespace Sys2Proof.Machine

theorem effect_or_raise {i : Instr} {s t : State} (h : exec i s = .next t) :
    Effect i s t ∨ ∃ e, Raises i s e ∧ t = fatalEntry (encode i) e s := by
  have hends := exec_ends i s
  rw [h] at hends
  cases hends with
  | effect heffect => exact .inl heffect
  | raise hraises => exact .inr ⟨_, hraises, rfl⟩

/-- The fatal entry writes nothing an instruction could be named for, so the frame holds however the phase ended. -/
theorem exec_frame {i : Instr} {s t : State} (h : exec i s = .next t) : Frame i s t := by
  obtain heffect | ⟨e, hraises, rfl⟩ := effect_or_raise h
  · exact heffect.toFrame
  · exact { draws := by rw [hraises.noDraw]; rfl }

theorem exec_answers {i : Instr} {s : State} (hsp : movesStack i = false ∨ s.sp.toNat ≤ 16) :
    ∃ t, exec i s = .next t := by
  have hends := exec_ends i s
  revert hends
  generalize exec i s = r
  rintro (_ | _ | ⟨hstack, hgt⟩)
  · exact ⟨_, rfl⟩
  · exact ⟨_, rfl⟩
  · rcases hsp with hno | hle
    · exact absurd hstack (Bool.eq_false_iff.mp hno)
    · omega

theorem step_answers {s : State} (hsp : s.sp.toNat ≤ 16) : ∃ t, step s = .next t := by
  obtain ⟨-, h⟩ | ⟨-, -, h⟩ | ⟨-, -, e, -, h⟩ | ⟨-, -, i, -, h⟩ := step_cases s
  · exact ⟨_, h⟩
  · exact ⟨_, h⟩
  · exact ⟨_, h⟩
  · rw [h]
    exact exec_answers (.inr hsp)

/-- Settles O53: the one way an execute phase does not answer needs SP above 16. -/
theorem stepAlwaysAnswers : Obligations.StepAlwaysAnswers := fun _ hsp =>
  ⟨step_answers hsp, fun _ => exec_answers (.inr hsp)⟩

/-- Settles O54: the contrapositives of the frame. -/
theorem onlyNamedInstructionsWrite : Obligations.OnlyNamedInstructionsWrite := by
  intro i s t h
  have hframe := exec_frame h
  refine ⟨fun r hne => ?_, fun hne => ?_, fun hne => ?_, fun hne => ?_, fun hne => ?_, fun hne => ?_, fun hne => ?_⟩
  · exact eq_true_of_ne_false fun hno => hne (hframe.reg r hno)
  · exact eq_true_of_ne_false fun hno => hne (hframe.index hno)
  · refine eq_true_of_ne_false fun hno => ?_
    obtain ⟨hsp, hstack⟩ := hframe.stack hno
    exact hne.elim (absurd hsp) (absurd hstack)
  · by_contra hno
    exact hne (hframe.dt fun x hx => hno ⟨x, hx⟩)
  · by_contra hno
    exact hne (hframe.st fun x hx => hno ⟨x, hx⟩)
  · exact eq_true_of_ne_false fun hno => hne (hframe.mem hno)
  · exact eq_true_of_ne_false fun hno => hne (hframe.disp hno)

/-- Settles O55: an effect leaves pc unless the instruction sets it, and the fatal entry takes it back by 2. -/
theorem onlyControlTransfersSetPc : Obligations.OnlyControlTransfersSetPc := by
  intro i s t _ h hne
  obtain heffect | ⟨e, -, rfl⟩ := effect_or_raise h
  · exact .inl (eq_true_of_ne_false fun hno => hne (heffect.pc hno))
  · exact .inr ⟨rfl, rfl⟩

theorem Effect.status_eq {i : Instr} {s t : State} (h : Effect i s t) : t.status = s.status :=
  congrArg StepResult.status h.record

/-- Settles O56: an effect leaves STATUS as it was, and what is raised is among what the instruction may raise. -/
theorem onlyNamedInstructionsRaise : Obligations.OnlyNamedInstructionsRaise := by
  intro i s t hrun h hstopped
  obtain heffect | ⟨e, hraises, rfl⟩ := effect_or_raise h
  · exact absurd (heffect.status_eq.trans hrun) hstopped
  · exact ⟨rfl, hraises.cause, hraises.info⟩

/-- What a STEP that ends FATAL did: it took the fatal entry for the instruction whose word it fetched. -/
theorem step_fatal_cases {s t : State} (hrun : s.status = .running) (h : step s = .next t)
    (hfatal : t.status = .fatal) :
    ∃ i e, decode (fetchWord s) = .ok i ∧ Raises i (advancePc s) e ∧ t = fatalEntry (encode i) e (advancePc s) := by
  obtain ⟨hno, -⟩ | ⟨-, -, hstep⟩ | ⟨-, -, e, -, hstep⟩ | ⟨-, -, i, hdec, hstep⟩ := step_cases s
  · exact absurd hrun hno
  · cases hstep.symm.trans h
    cases hfatal
  · cases hstep.symm.trans h
    cases hrun.symm.trans hfatal
  · obtain heffect | ⟨e, hraises, ht⟩ := effect_or_raise (hstep.symm.trans h)
    · cases (heffect.status_eq.trans hrun).symm.trans hfatal
    · exact ⟨i, e, hdec, hraises, ht⟩

theorem advancePc_pc_sub (s : State) : (advancePc s).pc - 2 = s.pc := BitVec.add_sub_cancel s.pc 2

/-- Settles O57: the fatal entry takes the fetch's advance of pc back, and the word recorded is the encoding of what was
decoded, which is the word fetched. -/
theorem fatalStepIsPrecise : Obligations.FatalStepIsPrecise := by
  intro s t hrun hstep hfatal
  obtain ⟨i, e, hdec, hraises, rfl⟩ := step_fatal_cases hrun hstep hfatal
  refine ⟨advancePc_pc_sub s, encode_of_decode_ok hdec, ⟨i, hdec, hraises.cause⟩, ?_⟩
  exact congrArg (fun a => { s with pc := a }) (advancePc_pc_sub s)

theorem drawsOrClears_iff (i : Instr) : drawsOrClears i = true ↔ i = .cls ∨ ∃ x y n, i = .drw x y n := by
  constructor
  · intro h
    cases i with
    | cls => exact .inl rfl
    | drw x y n => exact .inr ⟨x, y, n, rfl⟩
    | _ => cases h
  · rintro (rfl | ⟨x, y, n, rfl⟩) <;> rfl

theorem snapshotOf_of_not_drawsOrClears {s : State} (h : ∀ i, invoked s = some i → drawsOrClears i = false)
    (t : State) : snapshotOf s t = none := by
  unfold snapshotOf
  split
  next i hi => rw [h i hi]; rfl
  next => rfl

theorem invoked_of_decode_ok {s : State} {i : Instr} (hfetch : fetches s = true) (hdec : decode (fetchWord s) = .ok i) :
    invoked s = some i := by
  simp only [invoked, hfetch, hdec, if_true]

/-- A STEP runs the instruction it invoked, or changes nothing but pc and the record. -/
theorem step_ends {s t : State} (h : step s = .next t) :
    (t = s ∨ t = haltEntry s ∨ t = advancePc s) ∨ ∃ i, invoked s = some i ∧ exec i (advancePc s) = .next t := by
  obtain ⟨-, hstep⟩ | ⟨-, -, hstep⟩ | ⟨-, -, e, -, hstep⟩ | ⟨hrun, hguard, i, hdec, hstep⟩ := step_cases s
  · exact .inl (.inl (Host.Outcome.next.inj (h.symm.trans hstep)))
  · exact .inl (.inr (.inl (Host.Outcome.next.inj (h.symm.trans hstep))))
  · exact .inl (.inr (.inr (Host.Outcome.next.inj (h.symm.trans hstep))))
  · have hfetch := fetches_of_running hrun ((guardFires_eq_false s).mp hguard)
    exact .inr ⟨i, invoked_of_decode_ok hfetch hdec, hstep.symm.trans h⟩

/-- A STEP that invoked no draw or clear opcode leaves the display. -/
theorem step_disp_eq {s t : State} (h : step s = .next t) (hno : ∀ i, invoked s = some i → drawsOrClears i = false) :
    t.disp = s.disp := by
  obtain (rfl | rfl | rfl) | ⟨i, hinv, hexec⟩ := step_ends h
  · rfl
  · rfl
  · rfl
  · exact (exec_frame hexec).disp (hno i hinv)

/-- Settles O49: the snapshot follows the opcode invoked, and only a draw or clear opcode writes the display. -/
theorem snapshotAfterDrawOrClear : Obligations.SnapshotAfterDrawOrClear := by
  intro s t h
  by_cases hdraws : ∃ i, invoked s = some i ∧ drawsOrClears i = true
  · obtain ⟨i, hinv, hi⟩ := hdraws
    have hsnap := snapshotOf_of_drawsOrClears hinv hi t
    refine ⟨iff_of_true hsnap ?_, fun hnone => nomatch hsnap.symm.trans hnone⟩
    simpa only [hinv, Option.some_inj] using (drawsOrClears_iff i).mp hi
  · have hno : ∀ i, invoked s = some i → drawsOrClears i = false := fun i hinv =>
      Bool.eq_false_iff.mpr fun hi => hdraws ⟨i, hinv, hi⟩
    have hsnap := snapshotOf_of_not_drawsOrClears hno t
    refine ⟨iff_of_false (fun hsome => nomatch hsnap.symm.trans hsome) ?_, fun _ => step_disp_eq h hno⟩
    rintro (hinv | ⟨x, y, n, hinv⟩)
    · exact nomatch hno _ hinv
    · exact nomatch hno _ hinv

theorem step_draws_le {s t : State} (h : step s = .next t) : s.draws ≤ t.draws := by
  obtain (rfl | rfl | rfl) | ⟨i, -, hexec⟩ := step_ends h
  · exact le_rfl
  · exact le_rfl
  · exact le_rfl
  · rw [(exec_frame hexec).draws]
    exact Nat.le_add_right _ _

theorem load_cases (rom : List Byte) (s : State) :
    (3584 < rom.length ∧ load rom s = .refused .romTooLong) ∨
    (rom.length ≤ 3584 ∧ load rom s =
      .next { State.reset with mem := Memory.place [] Config.progBase rom, draws := s.draws }) := by
  rcases Nat.lt_or_ge 3584 rom.length with h | h
  · exact .inl ⟨h, load_of_oversized s h⟩
  · exact .inr ⟨h, load_of_fits s h⟩

/-- Settles O60: the count is in the frame of every execute phase, and LOAD and TICK keep it. -/
theorem drawsAreNeverReused : Obligations.DrawsAreNeverReused := by
  refine ⟨fun i s t h => (exec_frame h).draws, fun r s t h => ?_⟩
  cases r with
  | load rom =>
    obtain ⟨-, hload⟩ | ⟨-, hload⟩ := load_cases rom s
    · exact nomatch hload.symm.trans h
    · cases hload.symm.trans h
      exact le_rfl
  | step => exact step_draws_le h
  | tick =>
    cases h
    exact le_rfl

end Sys2Proof.Machine
end

section
/-! Two runs: a core that differs in ST alone, or in the display alone, takes the same STEP (60_exceptions.md R215,
R225; 10_state.md R30, R31). -/

namespace Sys2Proof.Machine

/-- The state with another sound timer and another display. -/
def State.withHidden (s : State) (b : Byte) (d : Display) : State := { s with st := b, disp := d }

theorem State.withHidden_skipIf (s : State) (b : Byte) (d : Display) (c : Bool) :
    (s.withHidden b d).skipIf c = (s.skipIf c).withHidden b d := by
  cases c <;> rfl

theorem State.withHidden_writeVs (s : State) (b : Byte) (d : Display) (r : Nat) (bs : List Byte) :
    (s.withHidden b d).writeVs r bs = (s.writeVs r bs).withHidden b d := by
  induction bs generalizing s r with
  | nil => rfl
  | cons x bs ih => exact ih (s.writeV (BitVec.ofNat 4 r) x) (r + 1)

theorem State.withHidden_keyWait (s : State) (b : Byte) (d : Display) (x : Reg) (held : List Key) (pick : Nat) :
    (s.withHidden b d).keyWait x held pick = (s.keyWait x held pick).withHidden b d := by
  cases hchoice : chooseKey held pick with
  | none => rw [keyWait_of_none _ x hchoice, keyWait_of_none _ x hchoice]; rfl
  | some k => rw [keyWait_of_some _ x hchoice, keyWait_of_some _ x hchoice]; rfl

/-- The ST a core that had `b` in it holds after the instruction. -/
def soundAfter (i : Instr) (s : State) (b : Byte) : Byte :=
  match i with
  | .ldSt x => s.readV x
  | _ => b

theorem exec_ret_withHidden {s t : State} (h : execRet s = .next t) (b : Byte) (d : Display) :
    execRet (s.withHidden b d) = .next (t.withHidden b d) := by
  obtain ⟨hzero, hexec⟩ | ⟨hne, a, hentry, hexec⟩ | ⟨-, hexec⟩ := execRet_cases s
  · cases hexec.symm.trans h
    exact exec_ret_of_empty (s := s.withHidden b d) hzero
  · cases hexec.symm.trans h
    exact exec_ret_of_entry (s := s.withHidden b d) hne hentry
  · cases hexec.symm.trans h

theorem exec_call_withHidden {nnn : Addr12} {s t : State} (h : execCall nnn s = .next t) (b : Byte) (d : Display) :
    execCall nnn (s.withHidden b d) = .next (t.withHidden b d) := by
  obtain ⟨hfull, hexec⟩ | ⟨hroom, hexec⟩ | ⟨-, hexec⟩ := execCall_cases nnn s
  · cases hexec.symm.trans h
    exact exec_call_of_full nnn (s := s.withHidden b d) hfull
  · cases hexec.symm.trans h
    exact exec_call_of_room nnn (s := s.withHidden b d) hroom
  · cases hexec.symm.trans h

theorem exec_skp_withHidden {x : Reg} {s t : State} (h : exec (.skp x) s = .next t) (b : Byte) (d : Display) :
    exec (.skp x) (s.withHidden b d) = .next (t.withHidden b d) := by
  cases hkey : keyOperand (s.readV x) with
  | ok k =>
    cases (exec_skp_of_key x hkey).symm.trans h
    rw [← State.withHidden_skipIf]
    exact exec_skp_of_key x (s := s.withHidden b d) hkey
  | error e =>
    cases (exec_skp_of_key_error x hkey).symm.trans h
    exact exec_skp_of_key_error x (s := s.withHidden b d) hkey

theorem exec_sknp_withHidden {x : Reg} {s t : State} (h : exec (.sknp x) s = .next t) (b : Byte) (d : Display) :
    exec (.sknp x) (s.withHidden b d) = .next (t.withHidden b d) := by
  cases hkey : keyOperand (s.readV x) with
  | ok k =>
    cases (exec_sknp_of_key x hkey).symm.trans h
    rw [← State.withHidden_skipIf]
    exact exec_sknp_of_key x (s := s.withHidden b d) hkey
  | error e =>
    cases (exec_sknp_of_key_error x hkey).symm.trans h
    exact exec_sknp_of_key_error x (s := s.withHidden b d) hkey

theorem exec_ldBcd_withHidden {x : Reg} {s t : State} (h : execLdBcd x s = .next t) (b : Byte) (d : Display) :
    execLdBcd x (s.withHidden b d) = .next (t.withHidden b d) := by
  obtain ⟨hfit, hexec⟩ | ⟨hover, hexec⟩ := execLdBcd_cases x s
  · cases hexec.symm.trans h
    exact exec_ldBcd_of_fits x (s := s.withHidden b d) hfit
  · cases hexec.symm.trans h
    exact exec_ldBcd_of_overruns x (s := s.withHidden b d) hover

theorem exec_storeRegs_withHidden {x : Reg} {s t : State} (h : execStoreRegs x s = .next t) (b : Byte) (d : Display) :
    execStoreRegs x (s.withHidden b d) = .next (t.withHidden b d) := by
  obtain ⟨hfit, hexec⟩ | ⟨hover, hexec⟩ := execStoreRegs_cases x s
  · cases hexec.symm.trans h
    exact exec_storeRegs_of_fits x (s := s.withHidden b d) hfit
  · cases hexec.symm.trans h
    exact exec_storeRegs_of_overruns x (s := s.withHidden b d) hover

theorem exec_loadRegs_withHidden {x : Reg} {s t : State} (h : execLoadRegs x s = .next t) (b : Byte) (d : Display) :
    execLoadRegs x (s.withHidden b d) = .next (t.withHidden b d) := by
  obtain ⟨hfit, hexec⟩ | ⟨hover, hexec⟩ := execLoadRegs_cases x s
  · cases hexec.symm.trans h
    rw [← State.withHidden_writeVs]
    exact exec_loadRegs_of_fits x (s := s.withHidden b d) hfit
  · cases hexec.symm.trans h
    exact exec_loadRegs_of_overruns x (s := s.withHidden b d) hover

/-- No instruction but DXYN and 00E0 looks at the display, and none at ST. -/
theorem exec_withHidden {i : Instr} {s t : State} (hno : drawsOrClears i = false) (h : exec i s = .next t) (b : Byte)
    (d : Display) : exec i (s.withHidden b d) = .next (t.withHidden (soundAfter i s b) d) := by
  cases i with
  | cls | drw => cases hno
  | ret => exact exec_ret_withHidden h b d
  | call nnn => exact exec_call_withHidden h b d
  | seImm | sneImm | seReg | sneReg =>
    cases h
    exact congrArg Host.Outcome.next (s.withHidden_skipIf b d _)
  | skp x => exact exec_skp_withHidden h b d
  | sknp x => exact exec_sknp_withHidden h b d
  | ldKey x =>
    cases h
    exact congrArg Host.Outcome.next (s.drawn.withHidden_keyWait b d x _ _)
  | ldBcd x => exact exec_ldBcd_withHidden h b d
  | storeRegs x => exact exec_storeRegs_withHidden h b d
  | loadRegs x => exact exec_loadRegs_withHidden h b d
  | _ =>
    cases h
    rfl

theorem exec_soundAfter {i : Instr} {s t : State} (hno : drawsOrClears i = false) (h : exec i s = .next t) :
    soundAfter i s s.st = t.st :=
  congrArg State.st (Host.Outcome.next.inj ((exec_withHidden hno h s.st s.disp).symm.trans h))

/-- `u` is `t` but for ST. -/
def AgreeButSound (t u : State) : Prop := ∃ c, u = { t with st := c }

/-- `u` is `t` but for the display and VF. -/
def AgreeButDisplayAndFlag (t u : State) : Prop :=
  ∃ (d : Display) (f : Byte), u = ({ t with disp := d } : State).writeV flagReg f

theorem State.writeV_readV (s : State) (r : Reg) : s.writeV r (s.readV r) = s := by
  simp [writeV, readV]

theorem State.writeV_writeV (s : State) (r : Reg) (a b : Byte) : (s.writeV r a).writeV r b = s.writeV r b := by
  simp [writeV]

theorem agreeButDisplayAndFlag_of_disp (t : State) (d : Display) : AgreeButDisplayAndFlag t { t with disp := d } :=
  ⟨d, t.readV flagReg, (State.writeV_readV { t with disp := d } flagReg).symm⟩

theorem exec_agreeButSound {i : Instr} {s t : State} (h : exec i s = .next t) (b : Byte) :
    ∃ u, exec i { s with st := b } = .next u ∧ AgreeButSound t u := by
  cases hdraws : drawsOrClears i with
  | false =>
    have hdisp : t.disp = s.disp := (exec_frame h).disp hdraws
    refine ⟨_, exec_withHidden hdraws h b s.disp, soundAfter i s b, ?_⟩
    rw [← hdisp]
    rfl
  | true =>
    obtain rfl | ⟨x, y, n, rfl⟩ := (drawsOrClears_iff i).mp hdraws
    · cases h
      exact ⟨_, rfl, b, rfl⟩
    · obtain ⟨hfit, hexec⟩ | ⟨hpos, hover, hexec⟩ := execDrw_cases x y n s
      · cases hexec.symm.trans h
        exact ⟨_, exec_drw_of_fits x y n (s := { s with st := b }) hfit, b, rfl⟩
      · cases hexec.symm.trans h
        exact ⟨_, exec_drw_of_overruns x y n (s := { s with st := b }) hpos hover, b, rfl⟩

theorem exec_agreeButDisplayAndFlag {i : Instr} {s t : State} (h : exec i s = .next t) (d : Display) :
    ∃ u, exec i { s with disp := d } = .next u ∧ AgreeButDisplayAndFlag t u := by
  cases hdraws : drawsOrClears i with
  | false =>
    refine ⟨_, exec_withHidden hdraws h s.st d, ?_⟩
    rw [exec_soundAfter hdraws h]
    exact agreeButDisplayAndFlag_of_disp t d
  | true =>
    obtain rfl | ⟨x, y, n, rfl⟩ := (drawsOrClears_iff i).mp hdraws
    · cases h
      exact ⟨_, rfl, agreeButDisplayAndFlag_of_disp _ _⟩
    · obtain ⟨hfit, hexec⟩ | ⟨hpos, hover, hexec⟩ := execDrw_cases x y n s
      · cases hexec.symm.trans h
        exact ⟨_, exec_drw_of_fits x y n (s := { s with disp := d }) hfit, _, _, (State.writeV_writeV _ _ _ _).symm⟩
      · cases hexec.symm.trans h
        exact ⟨_, exec_drw_of_overruns x y n (s := { s with disp := d }) hpos hover, agreeButDisplayAndFlag_of_disp _ _⟩

/-- Two cores that fetch alike take the same way through a STEP, so a relation that holds before it and that each of
the four ways keeps holds after it. -/
theorem step_agree {R : State → State → Prop} {s u t : State} (hstatus : u.status = s.status) (hpc : u.pc = s.pc)
    (hword : fetchWord u = fetchWord s) (hbefore : R s u) (hhalt : R (haltEntry s) (haltEntry u))
    (hadvance : R (advancePc s) (advancePc u))
    (hexec : ∀ i t, exec i (advancePc s) = .next t → ∃ w, exec i (advancePc u) = .next w ∧ R t w)
    (h : step s = .next t) : ∃ w, step u = .next w ∧ R t w := by
  have hguard : guardFires u = guardFires s := congrArg (fun a : Word => decide (0xFFE < a.toNat)) hpc
  obtain ⟨hno, hstep⟩ | ⟨hrun, hfires, hstep⟩ | ⟨hrun, hfires, e, hdec, hstep⟩ | ⟨hrun, hfires, i, hdec, hstep⟩ :=
    step_cases s
  · cases hstep.symm.trans h
    exact ⟨u, step_of_not_running (hstatus ▸ hno), hbefore⟩
  · cases hstep.symm.trans h
    exact ⟨_, step_halting (hstatus.trans hrun) (hguard.trans hfires), hhalt⟩
  · cases hstep.symm.trans h
    have hinside := (guardFires_eq_false u).mp (hguard.trans hfires)
    exact ⟨_, step_of_decode_error (hstatus.trans hrun) hinside (hword ▸ hdec), hadvance⟩
  · have hinside := (guardFires_eq_false u).mp (hguard.trans hfires)
    rw [step_of_decode_ok (hstatus.trans hrun) hinside (hword ▸ hdec)]
    exact hexec i t (hstep.symm.trans h)

/-- Settles O58: no part of the cycle looks at ST. -/
theorem soundTimerNeverObserved : Obligations.SoundTimerNeverObserved := by
  intro s t b h
  obtain ⟨_, hstep, c, rfl⟩ := step_agree (R := AgreeButSound) (s := s) (u := { s with st := b }) rfl rfl rfl
    ⟨b, rfl⟩ ⟨b, rfl⟩ ⟨b, rfl⟩ (fun _ _ hexec => exec_agreeButSound hexec b) h
  exact ⟨c, hstep⟩

/-- Settles O59: of the parts of the cycle DXYN alone looks at the display, and writes VF from it. -/
theorem displayReachesOnlyTheFlag : Obligations.DisplayReachesOnlyTheFlag := by
  intro s t d h
  obtain ⟨_, hstep, d', f, rfl⟩ := step_agree (R := AgreeButDisplayAndFlag) (s := s) (u := { s with disp := d })
    rfl rfl rfl (agreeButDisplayAndFlag_of_disp s d) (agreeButDisplayAndFlag_of_disp (haltEntry s) d)
    (agreeButDisplayAndFlag_of_disp (advancePc s) d) (fun _ _ hexec => exec_agreeButDisplayAndFlag hexec d) h
  exact ⟨d', f, hstep⟩

end Sys2Proof.Machine
end

section
/-! The invariant: every execute phase keeps each of its clauses, so every STEP and every schedule does (10_state.md R25
to R34; 60_exceptions.md R200 to R208). -/

namespace Sys2Proof.Machine

theorem exec_memCanonical {i : Instr} {s t : State} (h : exec i s = .next t) (hwf : Memory.wf s.mem = true) :
    Memory.wf t.mem = true := by
  cases hwrites : writesMemory i with
  | false => rw [(exec_frame h).mem hwrites, hwf]
  | true =>
    cases i with
    | ldBcd x =>
      obtain ⟨hfit, hexec⟩ | ⟨-, hexec⟩ := execLdBcd_cases x s
      · cases hexec.symm.trans h
        exact Memory.wf_place _ hwf hfit
      · cases hexec.symm.trans h
        exact hwf
    | storeRegs x =>
      obtain ⟨hfit, hexec⟩ | ⟨-, hexec⟩ := execStoreRegs_cases x s
      · cases hexec.symm.trans h
        exact Memory.wf_place _ hwf ((s.readVs_length x).symm ▸ hfit)
      · cases hexec.symm.trans h
        exact hwf
    | _ => cases hwrites

theorem exec_spInRange {i : Instr} {s t : State} (h : exec i s = .next t) (hsp : s.sp.toNat ≤ 16) :
    t.sp.toNat ≤ 16 := by
  cases hmoves : movesStack i with
  | false => rw [((exec_frame h).stack hmoves).1]; exact hsp
  | true =>
    cases i with
    | ret =>
      obtain ⟨-, hexec⟩ | ⟨hne, a, -, hexec⟩ | ⟨-, hexec⟩ := execRet_cases s
      · cases hexec.symm.trans h
        exact hsp
      · cases hexec.symm.trans h
        change (s.sp - 1).toNat ≤ 16
        bv_omega
      · cases hexec.symm.trans h
    | call nnn =>
      obtain ⟨-, hexec⟩ | ⟨hroom, hexec⟩ | ⟨-, hexec⟩ := execCall_cases nnn s
      · cases hexec.symm.trans h
        exact hsp
      · cases hexec.symm.trans h
        exact (sp_add_one_toNat hroom).trans_le hroom
      · cases hexec.symm.trans h
    | _ => cases hmoves

/-- Every entry is a return address: at most 0x1000. -/
def ReturnsInRange (s : State) : Prop := ∀ (k : Nat) (h : k < 16), (s.stack[k]'h).toNat ≤ 0x1000

/-- The entry a call writes is pc, which the fetch left at most 0x1000. -/
theorem exec_returnsInRange {i : Instr} {s t : State} (h : exec i s = .next t) (hpc : s.pc.toNat ≤ 0x1000)
    (hreturns : ReturnsInRange s) : ReturnsInRange t := by
  cases hmoves : movesStack i with
  | false =>
    intro k hk
    simp only [((exec_frame h).stack hmoves).2]
    exact hreturns k hk
  | true =>
    cases i with
    | ret =>
      obtain ⟨-, hexec⟩ | ⟨-, a, -, hexec⟩ | ⟨-, hexec⟩ := execRet_cases s
      · cases hexec.symm.trans h
        exact hreturns
      · cases hexec.symm.trans h
        exact hreturns
      · cases hexec.symm.trans h
    | call nnn =>
      obtain ⟨-, hexec⟩ | ⟨hroom, hexec⟩ | ⟨-, hexec⟩ := execCall_cases nnn s
      · cases hexec.symm.trans h
        exact hreturns
      · cases hexec.symm.trans h
        intro k hk
        change ((s.stack.set s.sp.toNat s.pc hroom)[k]).toNat ≤ 0x1000
        rw [Vector.getElem_set]
        split_ifs
        · exact hpc
        · exact hreturns k hk
      · cases hexec.symm.trans h
    | _ => cases hmoves

/-- Where pc can be after an execute phase: where the fetch left it, one word on, back at the instruction, at a target
that an address and a byte give, or at a return address. -/
inductive PcAfter (s : State) (a : Word) : Prop where
  | fetched (h : a = s.pc)
  | skipped (h : a = s.pc + 2)
  | back (h : a = s.pc - 2)
  | target (h : a.toNat ≤ 0xFFF + 0xFF)
  | returned (k : Byte) (h : s.stackEntry k = some a)

theorem pcAfter_skipIf {s u : State} (hpc : u.pc = s.pc) (c : Bool) : PcAfter s (u.skipIf c).pc := by
  cases c with
  | false => exact .fetched hpc
  | true => exact .skipped (congrArg (· + 2) hpc)

theorem pcAfter_keyWait (s : State) (x : Reg) (held : List Key) (pick : Nat) :
    PcAfter s (s.drawn.keyWait x held pick).pc := by
  cases hchoice : chooseKey held pick with
  | none => exact .back (by rw [State.keyWait_of_none _ x hchoice]; rfl)
  | some k => exact .fetched (by rw [State.keyWait_of_some _ x hchoice]; rfl)

theorem pcAfter_addrOperand (s : State) (nnn : Addr12) : PcAfter s (addrOperand nnn) :=
  .target (by have := nnn.isLt; rw [addrOperand_toNat]; omega)

theorem exec_pcAfter {i : Instr} {s t : State} (h : exec i s = .next t) : PcAfter s t.pc := by
  obtain heffect | ⟨e, -, rfl⟩ := effect_or_raise h
  case inr => exact .back rfl
  cases hsets : setsPc i with
  | false => exact .fetched (heffect.pc hsets)
  | true =>
    cases i with
    | ret =>
      obtain ⟨-, hexec⟩ | ⟨-, a, hentry, hexec⟩ | ⟨-, hexec⟩ := execRet_cases s
      · cases hexec.symm.trans h
        exact .back rfl
      · cases hexec.symm.trans h
        exact .returned _ hentry
      · cases hexec.symm.trans h
    | call nnn =>
      obtain ⟨-, hexec⟩ | ⟨_, hexec⟩ | ⟨-, hexec⟩ := execCall_cases nnn s
      · cases hexec.symm.trans h
        exact .back rfl
      · cases hexec.symm.trans h
        exact pcAfter_addrOperand s nnn
      · cases hexec.symm.trans h
    | jp nnn =>
      cases h
      exact pcAfter_addrOperand s nnn
    | jpV0 nnn =>
      cases h
      have := nnn.isLt
      have := (s.readV 0).isLt
      exact .target (by rw [State.jump_pc, addrOperand_add_wideOperand_toNat]; omega)
    | skp x =>
      obtain ⟨-, c, hexec⟩ | ⟨-, hexec⟩ := execSkp_cases x s
      · cases hexec.symm.trans h
        exact pcAfter_skipIf (s := s) (u := s.drawn) rfl c
      · cases hexec.symm.trans h
        exact .back rfl
    | sknp x =>
      obtain ⟨-, c, hexec⟩ | ⟨-, hexec⟩ := execSknp_cases x s
      · cases hexec.symm.trans h
        exact pcAfter_skipIf (s := s) (u := s.drawn) rfl c
      · cases hexec.symm.trans h
        exact .back rfl
    | ldKey x =>
      cases h
      exact pcAfter_keyWait s x _ _
    | seImm | sneImm | seReg | sneReg =>
      cases h
      exact pcAfter_skipIf rfl _
    | _ => cases hsets

theorem exec_pcInRange {i : Instr} {s t : State} (h : exec i s = .next t) (hlow : 2 ≤ s.pc.toNat)
    (hpc : s.pc.toNat ≤ 0x1000) (hreturns : ReturnsInRange s) : t.pc.toNat ≤ 0x10FE := by
  cases exec_pcAfter h with
  | fetched ht => rw [ht]; omega
  | skipped ht => bv_omega
  | back ht => bv_omega
  | target ht => omega
  | returned k hentry =>
    obtain ⟨hk, hread⟩ := Vector.getElem?_eq_some_iff.mp hentry
    have := hreturns k.toNat hk
    rw [hread] at this
    omega

/-- In a running core the record is all that `recordFits` looks at. -/
theorem recordFits_of_running {s t : State} (hrun : s.status = .running) (hsame : stepResult t = stepResult s)
    (hfits : recordFits s = true) : recordFits t = true := by
  obtain ⟨hstatus, hcause, hpc, hop, hinfo⟩ := StepResult.mk.inj hsame
  rw [recordFits, hrun] at hfits
  rw [recordFits, hstatus, hrun, hcause, hpc, hop, hinfo]
  exact hfits

theorem recordFits_haltEntry {s : State} (hguard : guardFires s = true) : recordFits (haltEntry s) = true := by
  have hstill : guardFires (haltEntry s) = true := hguard
  simp [recordFits, hstill]

/-- The fatal entry of a STEP leaves pc at the word it records, which is the instruction's. -/
theorem recordFits_fatalEntry {i : Instr} {s : State} {e : Raise} (hguard : guardFires s = false)
    (hdec : decode (fetchWord s) = .ok i) (hraises : Raises i (advancePc s) e) :
    recordFits (fatalEntry (encode i) e (advancePc s)) = true := by
  have hback := advancePc_pc_sub s
  have hword : fetchWord (fatalEntry (encode i) e (advancePc s)) = encode i := by
    rw [encode_of_decode_ok hdec, fetchWord, fatalEntry_pc, hback]
    rfl
  have hinside : guardFires (fatalEntry (encode i) e (advancePc s)) = false := by
    rw [guardFires, fatalEntry_pc, hback]
    exact hguard
  simp [recordFits, hword, hinside, decode_encode, hraises.cause, hraises.info]

theorem Inv.of_haltEntry {s : State} (h : Inv s) (hguard : guardFires s = true) : Inv (haltEntry s) where
  memCanonical := h.memCanonical
  spInRange := h.spInRange
  returnsInRange := h.returnsInRange
  pcInRange := h.pcInRange
  recorded := recordFits_haltEntry hguard

/-- The fetch's advance leaves pc between 2 and 0x1000. -/
theorem advancePc_pc_bounds {s : State} (hguard : guardFires s = false) :
    2 ≤ (advancePc s).pc.toNat ∧ (advancePc s).pc.toNat ≤ 0x1000 := by
  have hpc := (guardFires_eq_false s).mp hguard
  rw [advancePc_pc]
  bv_omega

theorem Inv.of_advancePc {s : State} (h : Inv s) (hrun : s.status = .running) (hguard : guardFires s = false) :
    Inv (advancePc s) where
  memCanonical := h.memCanonical
  spInRange := h.spInRange
  returnsInRange := h.returnsInRange
  pcInRange := by have := advancePc_pc_bounds hguard; omega
  recorded := recordFits_of_running hrun rfl h.recorded

/-- A fetched instruction keeps the invariant: the record is untouched by an effect and fits after a fatal entry. -/
theorem Inv.of_exec {i : Instr} {s t : State} (h : Inv s) (hrun : s.status = .running) (hguard : guardFires s = false)
    (hdec : decode (fetchWord s) = .ok i) (hexec : exec i (advancePc s) = .next t) : Inv t := by
  obtain ⟨hlow, hhigh⟩ := advancePc_pc_bounds hguard
  refine ⟨exec_memCanonical hexec h.memCanonical, exec_spInRange hexec h.spInRange,
    exec_returnsInRange hexec hhigh h.returnsInRange, exec_pcInRange hexec hlow hhigh h.returnsInRange, ?_⟩
  obtain heffect | ⟨e, hraises, rfl⟩ := effect_or_raise hexec
  · exact recordFits_of_running hrun heffect.record h.recorded
  · exact recordFits_fatalEntry hguard hdec hraises

/-- Settles O51, by the four ways a STEP goes. -/
theorem stepKeepsInvariant : Obligations.StepKeepsInvariant := by
  intro s t hinv h
  obtain ⟨-, hstep⟩ | ⟨-, hguard, hstep⟩ | ⟨hrun, hguard, e, -, hstep⟩ | ⟨hrun, hguard, i, hdec, hstep⟩ :=
    step_cases s
  · cases hstep.symm.trans h
    exact hinv
  · cases hstep.symm.trans h
    exact hinv.of_haltEntry hguard
  · cases hstep.symm.trans h
    exact hinv.of_advancePc hrun hguard
  · exact hinv.of_exec hrun hguard hdec (hstep.symm.trans h)

theorem Inv.of_tick {s : State} (h : Inv s) : Inv (tick s) where
  memCanonical := h.memCanonical
  spInRange := h.spInRange
  returnsInRange := h.returnsInRange
  pcInRange := h.pcInRange
  recorded := h.recorded

/-- The state after LOAD of an image that fits meets the invariant, whatever the draw count. -/
theorem inv_loaded {rom : List Byte} (hlen : rom.length ≤ 3584) (n : Nat) :
    Inv { State.reset with mem := Memory.place [] Config.progBase rom, draws := n } where
  memCanonical := Memory.wf_place rom rfl (show 0x200 + rom.length ≤ 0x1000 by omega)
  spInRange := Nat.zero_le 16
  returnsInRange k hk := by
    change ((Vector.replicate 16 (0 : Word))[k]).toNat ≤ 0x1000
    rw [Vector.getElem_replicate]
    decide
  pcInRange := (by decide : (0x0200 : Word).toNat ≤ 0x10FE)
  recorded := rfl

/-- Settles O50: the reset state is the one after LOAD of the empty image. -/
theorem resetMeetsInvariant : Obligations.ResetMeetsInvariant := inv_loaded (rom := []) (by decide) 0

/-- Settles O52, by induction over the schedule with the state free: each request is refused or answers a state that
meets the invariant. -/
theorem everySchedulePreservesInvariant : Obligations.EverySchedulePreservesInvariant := by
  intro rs
  induction rs with
  | nil => exact fun s hinv => ⟨s, rfl, hinv⟩
  | cons r rs ih =>
    intro s hinv
    cases r with
    | load rom =>
      obtain ⟨hlen, -⟩ | ⟨hlen, hload⟩ := load_cases rom s
      · rw [(oversizedRomIsRefused rom s rs hlen).2]
        exact ih s hinv
      · rw [serveAll_cons_of_next (r := .load rom) hload]
        exact ih _ (inv_loaded hlen s.draws)
    | step =>
      obtain ⟨t, hstep⟩ := step_answers hinv.spInRange
      rw [serveAll_cons_of_next (r := .step) hstep]
      exact ih t (stepKeepsInvariant s t hinv hstep)
    | tick =>
      rw [serveAll_cons_of_next (r := .tick) rfl]
      exact ih _ hinv.of_tick

end Sys2Proof.Machine
end
